-- ==== Sys2Proof/Word.lean ====
section
/-! DEFINITION. The word types of the block (spec/00_scope.md R8): a byte is 8 bits, a command or response word 32 bits, a
register or attribute word 16 bits. Lengths, counts and capacities are natural numbers (R8, R12) and have no type of their own. -/

namespace Sys2Proof

/-- One byte of queue storage (20_memory.md R51). -/
abbrev Byte := BitVec 8

/-- A command word or a response word; bit 0 is the least significant bit (00_scope.md R8). -/
abbrev Word := BitVec 32

/-- An attribute word or the contents of a status register (10_state.md R27, 42_status_access.md R170). -/
abbrev Half := BitVec 16

end Sys2Proof
end

