-- ==== Sys2Proof/Config.lean ====
section
/-! DEFINITION. The ten build-time parameters of the block (spec/00_scope.md R5 to R7, 10_state.md R27). They are an argument of
the model and no numbers of it: a claim holds for every legal configuration or names the one it assumes (92_eei_decisions.md D5).
The block leaves nothing else open, so there is no free value here. -/

namespace Sys2Proof

/-- The largest value a 16-bit length field carries, the upper bound of every size (00_scope.md R6). -/
def maxLength : Nat := 65535

/-- The constants of one endpoint FIFO (40_endpoint_fifo.md R100): `m` its maximum packet size, `c` its capacity in data bytes,
`zd` its number of zero-length-packet marker slots, `attr` its attribute word. -/
structure FifoConfig where
  m    : Nat
  c    : Nat
  zd   : Nat
  attr : Half
deriving DecidableEq, Repr

/-- The ten parameters (00_scope.md R5): `outF` holds M_OUT, C_OUT, ZD_OUT, ATTR_OUT; `inF` holds M_IN, C_IN, ZD_IN, ATTR_IN;
`bRx` is B_RX and `bTx` is B_TX. -/
structure Config where
  outF : FifoConfig
  inF  : FifoConfig
  bRx  : Nat
  bTx  : Nat
deriving DecidableEq, Repr

/-- The range of a size parameter: 1 to 65535 (00_scope.md R5, R6). -/
abbrev sizeLegal (n : Nat) : Prop := 1 ≤ n ∧ n ≤ maxLength

/-- Field NUM of an attribute word, bits [3:0] (10_state.md R27). -/
def attrNum (a : Half) : Nat := (a.extractLsb' 0 4).toNat

/-- Field DIR of an attribute word, bit [7]: 0 for the OUT endpoint, 1 for the IN endpoint (10_state.md R27). -/
def attrDir (a : Half) : Nat := (a.extractLsb' 7 1).toNat

/-- Field TYPE of an attribute word, bits [9:8]: 0 control, 2 bulk, 3 interrupt, 1 reserved (10_state.md R27). -/
def attrType (a : Half) : Nat := (a.extractLsb' 8 2).toNat

/-- A legal attribute word of direction `dir`: endpoint number 1 to 15, its direction bit, a transfer type that is not the
reserved code 1, and zero in bits [6:4] and [15:10] (10_state.md R27, 93_implementation_defined.md U10). -/
abbrev attrLegal (dir : Nat) (a : Half) : Prop :=
  1 ≤ attrNum a ∧ attrDir a = dir ∧ attrType a ≠ 1 ∧ a.extractLsb' 4 3 = 0#3 ∧ a.extractLsb' 10 6 = 0#6

/-- Legal constants of one FIFO (00_scope.md R5, R6). No relation between `m` and `c` is required, and `zd` may be 0. -/
abbrev FifoConfig.legal (dir : Nat) (f : FifoConfig) : Prop :=
  sizeLegal f.m ∧ sizeLegal f.c ∧ f.zd ≤ maxLength ∧ attrLegal dir f.attr

/-- A legal configuration (00_scope.md R5, R6); any other is no configuration of this block (93_implementation_defined.md U10). -/
abbrev Config.legal (k : Config) : Prop :=
  k.outF.legal 0 ∧ k.inF.legal 1 ∧ sizeLegal k.bRx ∧ sizeLegal k.bTx

/-- The configuration `CFG_REF` of the spec's test vectors (00_scope.md R7). -/
def Config.ref : Config where
  outF := { m := 64, c := 256, zd := 2, attr := 0x0201#16 }
  inF  := { m := 64, c := 256, zd := 2, attr := 0x0281#16 }
  bRx  := 128
  bTx  := 128

/-- The configuration `CFG_SMALL` of the spec's test vectors (00_scope.md R7). -/
def Config.small : Config where
  outF := { m := 8, c := 16, zd := 1, attr := 0x0201#16 }
  inF  := { m := 8, c := 16, zd := 1, attr := 0x0281#16 }
  bRx  := 12
  bTx  := 12

end Sys2Proof
end

