-- ==== Sys2Proof/Syntax.lean ====
section
/-! DEFINITION. The syntax of the block: what goes into the command port and comes out of it (spec/30_encoding.md R70), the eight
commands (R74), the registers RDREG names (42_status_access.md R170) and the outcomes of a command (00_scope.md R11). -/

namespace Sys2Proof

/-- A command as the port takes it: the word CW and the payload (30_encoding.md R70). -/
structure Command where
  cw      : Word
  payload : List Byte
deriving DecidableEq, Repr

/-- The two users of the block (00_scope.md R14). No command and no state holds one: the block cannot tell them apart
(60_exceptions.md R188). -/
inductive Side where
  | host | device
deriving DecidableEq, Repr

/-- The four readings of ARG and the payload (30_encoding.md R72): write, read, no operand, register. -/
inductive Format where
  | w | r | n | g
deriving DecidableEq, Repr

/-- The defined status registers (42_status_access.md R170): ten parameters, six counts, FLAGS. -/
inductive Reg where
  | mOut | cOut | zdOut | attrOut | mIn | cIn | zdIn | attrIn | bRx | bTx
  | cntOut | zcntOut | cntIn | zcntIn | cntRx | cntTx | flags
deriving DecidableEq, Repr

/-- The instruction set: the eight commands of 30_encoding.md R74 with their operands (R72, R73). -/
inductive Instr where
  /-- PUSH_OUT: write the payload to the OUT FIFO (40_endpoint_fifo.md R110). -/
  | pushOut (d : List Byte)
  /-- PULL_IN: read at most `maxLen` bytes from the IN FIFO (R111). -/
  | pullIn (maxLen : Nat)
  /-- DEV_RD: read at most `maxLen` bytes from the OUT FIFO (R112). -/
  | devRd (maxLen : Nat)
  /-- DEV_WR: write the payload to the IN FIFO (R113). -/
  | devWr (d : List Byte)
  /-- APP_WR: write the payload to the transmit Stream Buffer, then flush one chunk (41_stream_buffer.md R145). -/
  | appWr (d : List Byte)
  /-- APP_RD: pull once into the receive Stream Buffer, then read at most `dest` bytes of it (R146). -/
  | appRd (dest : Nat)
  /-- POLL: flush one chunk (R147). -/
  | poll
  /-- RDREG: read one status register (42_status_access.md R171). -/
  | rdreg (r : Reg)
deriving DecidableEq, Repr

/-- How a command ended (30_encoding.md R79). -/
inductive Status where
  | ok | wouldBlock | illegalCmd
deriving DecidableEq, Repr

/-- Why a FIFO read ended (30_encoding.md R80). -/
inductive Term where
  | none | short | length | drained
deriving DecidableEq, Repr

/-- The outcome of a command, `Resp(status, term, zq, val, data)` of 00_scope.md R11. -/
structure Resp where
  status : Status
  term   : Term
  zq     : Bool
  val    : Nat
  data   : List Byte
deriving DecidableEq, Repr

/-- A response as the port gives it: the word RW and the data (30_encoding.md R70). -/
structure Response where
  rw   : Word
  data : List Byte
deriving DecidableEq, Repr

/-- `Ok(val, data, term, zq)` with the defaults of 00_scope.md R11. -/
def Resp.ok (val : Nat) (data : List Byte := []) (term : Term := .none) (zq : Bool := false) : Resp :=
  { status := .ok, term := term, zq := zq, val := val, data := data }

/-- `WouldBlock` of 00_scope.md R11. -/
def Resp.wouldBlock : Resp := { status := .wouldBlock, term := .none, zq := false, val := 0, data := [] }

/-- `Illegal` of 00_scope.md R11. -/
def Resp.illegal : Resp := { status := .illegalCmd, term := .none, zq := false, val := 0, data := [] }

end Sys2Proof
end

