-- ==== Sys2Proof/WellFormed.lean ====
section
/-! DEFINITION. Which terms of the syntax a command word can carry: every length fits the 16-bit ARG (spec/30_encoding.md R71,
R72). A register operand is one of the defined registers by its type, and POLL has no operand. -/

namespace Sys2Proof

/-- The payload length fits ARG (30_encoding.md R70, R72). -/
def payloadFits (d : List Byte) : Bool := decide (d.length ≤ maxLength)

/-- A requested length fits ARG (30_encoding.md R72, R73). -/
def lengthFits (n : Nat) : Bool := decide (n ≤ maxLength)

/-- An instruction that some command encodes. -/
def Instr.wellFormed : Instr → Bool
  | .pushOut d => payloadFits d
  | .pullIn n  => lengthFits n
  | .devRd n   => lengthFits n
  | .devWr d   => payloadFits d
  | .appWr d   => payloadFits d
  | .appRd n   => lengthFits n
  | .poll      => true
  | .rdreg _   => true

/-- An outcome whose VAL fits its 16-bit field (30_encoding.md R78, 00_scope.md R11). -/
def Resp.wellFormed (r : Resp) : Bool := decide (r.val ≤ maxLength)

end Sys2Proof
end

