-- ==== Sys2Proof/Decode.lean ====
section
/-! DEFINITION. The encodings of spec/30_encoding.md: the command word and its fields (R71), the opcode map (R74), decoding, total
on every command and rejecting by name (R76, R77), the encoder, the byte-stream form of commands and responses (R82, R86), and
the response word (R78 to R80). -/

namespace Sys2Proof

/-! ### Bytes and words -/

/-- The `n` low bytes of a number, least significant first (20_memory.md R52, 30_encoding.md R86). -/
def leBytes : Nat → Nat → List Byte
  | 0, _     => []
  | n + 1, v => BitVec.ofNat 8 v :: leBytes n (v / 256)

/-- The number whose bytes are these, least significant first. -/
def ofLeBytes : List Byte → Nat
  | []      => 0
  | b :: bs => b.toNat + 256 * ofLeBytes bs

/-! ### The command word -/

/-- Field OP, bits [31:28] (30_encoding.md R71). -/
def opField (w : Word) : Nat := (w.extractLsb' 28 4).toNat

/-- Field RSV, bits [27:16] (30_encoding.md R71). -/
def rsvField (w : Word) : Nat := (w.extractLsb' 16 12).toNat

/-- Field ARG, bits [15:0], zero-extended (30_encoding.md R71, R73). -/
def argField (w : Word) : Nat := (w.extractLsb' 0 16).toNat

/-- `CW = OP * 2^28 + ARG` with RSV zero (30_encoding.md R71). -/
def commandWord (op arg : Nat) : Word := BitVec.ofNat 32 (op * 2 ^ 28 + arg)

/-! ### The opcode map (30_encoding.md R74) -/

/-- The operation code of a command (R74). -/
def Instr.opcode : Instr → Nat
  | .pushOut _ => 0x1
  | .pullIn _  => 0x2
  | .devRd _   => 0x3
  | .devWr _   => 0x4
  | .appWr _   => 0x5
  | .appRd _   => 0x6
  | .poll      => 0x7
  | .rdreg _   => 0x8

/-- The format of a command (R72, R74). -/
def Instr.format : Instr → Format
  | .pushOut _ => .w
  | .pullIn _  => .r
  | .devRd _   => .r
  | .devWr _   => .w
  | .appWr _   => .w
  | .appRd _   => .r
  | .poll      => .n
  | .rdreg _   => .g

/-- A row of the opcode map: a word `w` selects it when `w AND mask == bits` (R74). -/
structure OpcodeRow where
  mask : Word
  bits : Word
deriving DecidableEq, Repr

/-- The row of a command in the opcode map (R74). -/
def Instr.row : Instr → OpcodeRow
  | .pushOut _ => ⟨0xFFFF0000#32, 0x10000000#32⟩
  | .pullIn _  => ⟨0xFFFF0000#32, 0x20000000#32⟩
  | .devRd _   => ⟨0xFFFF0000#32, 0x30000000#32⟩
  | .devWr _   => ⟨0xFFFF0000#32, 0x40000000#32⟩
  | .appWr _   => ⟨0xFFFF0000#32, 0x50000000#32⟩
  | .appRd _   => ⟨0xFFFF0000#32, 0x60000000#32⟩
  | .poll      => ⟨0xFFFFFFFF#32, 0x70000000#32⟩
  | .rdreg _   => ⟨0xFFFF0000#32, 0x80000000#32⟩

/-! ### Register numbers (42_status_access.md R170) -/

/-- The number of a status register (R170). -/
def Reg.number : Reg → Nat
  | .mOut    => 0x0000
  | .cOut    => 0x0001
  | .zdOut   => 0x0002
  | .attrOut => 0x0003
  | .mIn     => 0x0004
  | .cIn     => 0x0005
  | .zdIn    => 0x0006
  | .attrIn  => 0x0007
  | .bRx     => 0x0008
  | .bTx     => 0x0009
  | .cntOut  => 0x0010
  | .zcntOut => 0x0011
  | .cntIn   => 0x0012
  | .zcntIn  => 0x0013
  | .cntRx   => 0x0014
  | .cntTx   => 0x0015
  | .flags   => 0x0016

/-- The register of a number; none for a reserved number, so `RegDefined(n)` is that there is one (R170). -/
def regOfNumber : Nat → Option Reg
  | 0x0000 => some .mOut
  | 0x0001 => some .cOut
  | 0x0002 => some .zdOut
  | 0x0003 => some .attrOut
  | 0x0004 => some .mIn
  | 0x0005 => some .cIn
  | 0x0006 => some .zdIn
  | 0x0007 => some .attrIn
  | 0x0008 => some .bRx
  | 0x0009 => some .bTx
  | 0x0010 => some .cntOut
  | 0x0011 => some .zcntOut
  | 0x0012 => some .cntIn
  | 0x0013 => some .zcntIn
  | 0x0014 => some .cntRx
  | 0x0015 => some .cntTx
  | 0x0016 => some .flags
  | _      => none

/-! ### Decoding a command -/

/-- Why a command is illegal (30_encoding.md R77). All lead to the one answer ILLEGAL_CMD. -/
inductive DecodeError where
  /-- RSV is not 0x000. -/
  | reservedBits
  /-- OP is 0x0 or 0x9 to 0xF. -/
  | reservedOpcode
  /-- A format W command whose payload length differs from ARG. -/
  | payloadLength
  /-- A format R, N or G command with a payload. -/
  | unexpectedPayload
  /-- POLL with ARG not 0. -/
  | pollArgument
  /-- RDREG of a number that is not in the register map. -/
  | undefinedRegister
deriving DecidableEq, Repr

/-- Format W: the payload must have exactly ARG bytes (30_encoding.md R72). -/
def decodeWrite (mk : List Byte → Instr) (c : Command) : Except DecodeError Instr :=
  if c.payload.length = argField c.cw then .ok (mk c.payload) else .error .payloadLength

/-- Format R: ARG is the length wanted and there is no payload (30_encoding.md R72). -/
def decodeRead (mk : Nat → Instr) (c : Command) : Except DecodeError Instr :=
  if c.payload = [] then .ok (mk (argField c.cw)) else .error .unexpectedPayload

/-- Format N: ARG is 0 and there is no payload (30_encoding.md R72). -/
def decodeNone (i : Instr) (c : Command) : Except DecodeError Instr :=
  if c.payload = [] then
    if argField c.cw = 0 then .ok i else .error .pollArgument
  else .error .unexpectedPayload

/-- Format G: ARG is a defined register number and there is no payload (30_encoding.md R72). -/
def decodeReg (mk : Reg → Instr) (c : Command) : Except DecodeError Instr :=
  if c.payload = [] then
    match regOfNumber (argField c.cw) with
    | some r => .ok (mk r)
    | none   => .error .undefinedRegister
  else .error .unexpectedPayload

/-- `Decode(CW, payload)` of 30_encoding.md R76. -/
def decode (c : Command) : Except DecodeError Instr :=
  if rsvField c.cw = 0 then
    match opField c.cw with
    | 0x1 => decodeWrite .pushOut c
    | 0x2 => decodeRead .pullIn c
    | 0x3 => decodeRead .devRd c
    | 0x4 => decodeWrite .devWr c
    | 0x5 => decodeWrite .appWr c
    | 0x6 => decodeRead .appRd c
    | 0x7 => decodeNone .poll c
    | 0x8 => decodeReg .rdreg c
    | _   => .error .reservedOpcode
  else .error .reservedBits

/-! ### Encoding a command -/

/-- The operand field of a command (30_encoding.md R72). -/
def Instr.arg : Instr → Nat
  | .pushOut d => d.length
  | .pullIn n  => n
  | .devRd n   => n
  | .devWr d   => d.length
  | .appWr d   => d.length
  | .appRd n   => n
  | .poll      => 0
  | .rdreg r   => r.number

/-- The payload of a command (30_encoding.md R72). -/
def Instr.payload : Instr → List Byte
  | .pushOut d => d
  | .pullIn _  => []
  | .devRd _   => []
  | .devWr d   => d
  | .appWr d   => d
  | .appRd _   => []
  | .poll      => []
  | .rdreg _   => []

/-- The command of a well-formed instruction, from R71, R72 and R74 of 30_encoding.md. -/
def encode (i : Instr) : Command where
  cw      := commandWord i.opcode i.arg
  payload := i.payload

/-! ### Commands on a byte stream (30_encoding.md R82, R86) -/

/-- The four bytes of a word, least significant first (R86). -/
def wordBytes (w : Word) : List Byte := leBytes 4 w.toNat

/-- The word of four bytes, least significant first (R86). -/
def wordOfBytes (bs : List Byte) : Word := BitVec.ofNat 32 (ofLeBytes bs)

/-- How many payload bytes follow a command word on a byte stream: ARG after OP 0x1, 0x4 or 0x5 with RSV 0, none after any other
word (R82). -/
def payloadLength (w : Word) : Nat :=
  if rsvField w = 0 ∧ (opField w = 0x1 ∨ opField w = 0x4 ∨ opField w = 0x5) then argField w else 0

/-- A command as bytes (R86). -/
def Command.toBytes (c : Command) : List Byte := wordBytes c.cw ++ c.payload

/-- The first command of a byte stream and the bytes after it; none while its word or payload is not there in full (R82). -/
def takeCommand (bs : List Byte) : Option (Command × List Byte) :=
  match bs with
  | b0 :: b1 :: b2 :: b3 :: rest =>
    let w := wordOfBytes [b0, b1, b2, b3]
    if payloadLength w ≤ rest.length then
      some (⟨w, rest.take (payloadLength w)⟩, rest.drop (payloadLength w))
    else none
  | _ => none

/-- At most `n` commands from the front of a byte stream, and the bytes left over. -/
def readCommandsUpTo : Nat → List Byte → List Command × List Byte
  | 0, bs     => ([], bs)
  | n + 1, bs =>
    match takeCommand bs with
    | none            => ([], bs)
    | some (c, rest)  => (c :: (readCommandsUpTo n rest).1, (readCommandsUpTo n rest).2)

/-- A byte stream cut into commands, and the bytes of a last one that is not yet complete (R82). Every command has at least four
bytes, so there are no more commands than bytes. -/
def readCommands (bs : List Byte) : List Command × List Byte := readCommandsUpTo bs.length bs

/-! ### The response word (30_encoding.md R78 to R80) -/

/-- STATUS codes (R79). -/
def Status.code : Status → Nat
  | .ok         => 0
  | .wouldBlock => 1
  | .illegalCmd => 2

/-- TERM codes (R80). -/
def Term.code : Term → Nat
  | .none    => 0
  | .short   => 1
  | .length  => 2
  | .drained => 3

/-- The response of an outcome: `RW = STATUS * 2^28 + TERM * 2^26 + ZQ * 2^25 + VAL` with the data (R78). -/
def Resp.encode (r : Resp) : Response where
  rw   := BitVec.ofNat 32 (r.status.code * 2 ^ 28 + r.term.code * 2 ^ 26 + r.zq.toNat * 2 ^ 25 + r.val)
  data := r.data

/-- Field STATUS of a response word, bits [31:28] (R78). -/
def Response.statusField (p : Response) : Nat := (p.rw.extractLsb' 28 4).toNat

/-- Field TERM, bits [27:26] (R78). -/
def Response.termField (p : Response) : Nat := (p.rw.extractLsb' 26 2).toNat

/-- Field ZQ, bit [25] (R78). -/
def Response.zqField (p : Response) : Nat := (p.rw.extractLsb' 25 1).toNat

/-- The field of zeros, bits [24:16] (R78). -/
def Response.zeroField (p : Response) : Nat := (p.rw.extractLsb' 16 9).toNat

/-- Field VAL, bits [15:0] (R78). -/
def Response.valField (p : Response) : Nat := (p.rw.extractLsb' 0 16).toNat

/-- The status of a code; codes 3 to 15 are never produced (R79). -/
def statusOfCode : Nat → Option Status
  | 0 => some .ok
  | 1 => some .wouldBlock
  | 2 => some .illegalCmd
  | _ => none

/-- The term of a two-bit code (R80). -/
def termOfCode : Nat → Option Term
  | 0 => some .none
  | 1 => some .short
  | 2 => some .length
  | 3 => some .drained
  | _ => none

/-- The outcome a response stands for; none for a word the block never gives (R78, R79, 93_implementation_defined.md U12). -/
def Response.decode (p : Response) : Option Resp :=
  if p.zeroField = 0 then
    match statusOfCode p.statusField, termOfCode p.termField with
    | some st, some tm => some { status := st, term := tm, zq := decide (p.zqField = 1), val := p.valField, data := p.data }
    | _, _             => none
  else none

/-- A response as bytes (30_encoding.md R82, R86). -/
def Response.toBytes (p : Response) : List Byte := wordBytes p.rw ++ p.data

/-- How many data bytes follow a response word on a byte stream: VAL after STATUS 0 to a command of format R, none after any
other (R82). -/
def responseDataLength (fmt : Format) (p : Response) : Nat :=
  if fmt = .r ∧ p.statusField = 0 then p.valField else 0

/-- The response to a command of format `fmt` at the front of a byte stream, and the bytes after it (R82). -/
def takeResponse (fmt : Format) (bs : List Byte) : Option (Response × List Byte) :=
  match bs with
  | b0 :: b1 :: b2 :: b3 :: rest =>
    let w := wordOfBytes [b0, b1, b2, b3]
    let n := responseDataLength fmt ⟨w, []⟩
    if n ≤ rest.length then some (⟨w, rest.take n⟩, rest.drop n) else none
  | _ => none

/-! ### A word of the opcode table -/

/-- The command whose bits are `w`, numbered from bit 0 of CW and on into the payload bytes, every bit above `nbits` zero: its
payload has the bytes `nbits` gives it, or the ARG bytes its word asks for where those are more (log entry 9). -/
def commandOfBits (nbits w : Nat) : Command :=
  let v := w % 2 ^ nbits
  let cw := BitVec.ofNat 32 v
  { cw := cw, payload := leBytes (max (payloadLength cw) ((nbits - 32) / 8)) (v / 2 ^ 32) }

/-- The instruction the decoder reads from an opcode-table word (log entry 9). -/
def decodeTableWord (nbits w : Nat) : Option Instr := (decode (commandOfBits nbits w)).toOption

end Sys2Proof
end

