-- ==== Sys2Proof/Machine/State.lean ====
section
/-! DEFINITION. The state of the machine: the four queues of spec/10_state.md R20, the parameters they are built with (00_scope.md
R5), and the two ends of the command port (30_encoding.md R70); the value after reset (10_state.md R35); the reasons to stop. -/

namespace Sys2Proof.Machine

/-- One element of an endpoint FIFO: a data byte or the zero-length-packet marker (10_state.md R21). -/
inductive Entry where
  | byte (b : Byte)
  | zlp
deriving DecidableEq, Repr

/-- What reaches the block from outside between two steps: a command on the port (30_encoding.md R70) or the event RESET
(70_reset_and_hazards.md R200). Which side sent a command is no part of it (60_exceptions.md R188). -/
inductive Input where
  | command (c : Command)
  | reset
deriving DecidableEq, Repr

/-- The whole architectural state of the block: four queues, head first (10_state.md R20, 00_scope.md R9). -/
structure Queues where
  outQ : List Entry
  inQ  : List Entry
  rxQ  : List Byte
  txQ  : List Byte
deriving DecidableEq, Repr

/-- The four queues after RESET: all empty (10_state.md R35). -/
def Queues.empty : Queues where
  outQ := []
  inQ  := []
  rxQ  := []
  txQ  := []

/-- The state of the machine as the host runs it: the block's four queues and, around them, what the spec makes an input of the
block's step (10_state.md R37). `cfg` holds the ten parameters, which no step writes (log entry 3). `inputs` are the commands and
RESET events handed over and not yet taken, `responses` the responses given, both oldest first: the outside of the port, which
stands here because the host's step takes a state alone. The block's own step, `blockStep`, has neither: it takes the parameters
and one input as arguments (log entries 1 and 2). -/
structure State extends Queues where
  cfg       : Config
  inputs    : List Input
  responses : List Response
deriving DecidableEq, Repr

/-- Faults that stop the machine: none, since no condition of this block is fatal and it is never stuck (60_exceptions.md R180,
R191). Nobody raises one. -/
inductive Fault
deriving DecidableEq, Repr

/-- Reasons for which the model gives a step no meaning. -/
inductive Refusal where
  /-- Raised by an arm of `exec` that has no meaning yet; no arm does. Safe: nothing is claimed of such an instruction. -/
  | notModelled (mnemonic : String)
  /-- Raised by `step` when `cfg` is outside the ranges of 00_scope.md R5: no configuration of this block, treatment `refuse`
  (93_implementation_defined.md U10, 70_reset_and_hazards.md R202; log entry 6). Safe: nothing is claimed of such a block. -/
  | illFormedConfig
deriving DecidableEq, Repr

/-- The block built with `k`, right after RESET: all four queues empty, the parameters as built (10_state.md R35); nothing handed
over and nothing answered (log entries 1 and 2). -/
def State.resetOf (k : Config) : State where
  toQueues  := Queues.empty
  cfg       := k
  inputs    := []
  responses := []

/-- The machine right after reset, built with the spec's reference configuration (00_scope.md R7; log entry 3). -/
def State.reset : State := State.resetOf Config.ref

end Sys2Proof.Machine
end

