-- ==== Sys2Proof/Machine/Ops.lean ====
section
/-! DEFINITION. The named operations of the block: the queue functions of spec/00_scope.md R9, the FIFO primitives of
40_endpoint_fifo.md (R103 to R105), the Stream Buffer steps of 41_stream_buffer.md (R140 to R143), giving a response, and the
event RESET (70_reset_and_hazards.md R200). There is no exception to take and none to return from: a condition is reported in
the response to the command that met it (60_exceptions.md R187, R189), by `State.respond`. -/

namespace Sys2Proof.Machine

/-! ### Queue functions (00_scope.md R9) -/

/-- `resident(F)`: the number of byte entries. -/
def resident : List Entry → Nat
  | []           => 0
  | .byte _ :: q => resident q + 1
  | .zlp :: q    => resident q

/-- `zlps(F)`: the number of marker entries. -/
def zlps : List Entry → Nat
  | []           => 0
  | .byte _ :: q => zlps q
  | .zlp :: q    => zlps q + 1

/-- `run(F)`: the number of byte entries before the first marker or the end of the queue. -/
def run : List Entry → Nat
  | []           => 0
  | .byte _ :: q => run q + 1
  | .zlp :: _    => 0

/-- `bytes_of`: the byte values of the byte entries. -/
def bytesOf : List Entry → List Byte
  | []           => []
  | .byte b :: q => b :: bytesOf q
  | .zlp :: q    => bytesOf q

/-- `entries_of`: a byte sequence as entries. -/
def entriesOf (d : List Byte) : List Entry := d.map .byte

/-- `free(F) = F.C - resident(F)`. -/
def fifoFree (f : FifoConfig) (q : List Entry) : Nat := f.c - resident q

/-! ### Updates of the state -/

/-- Put a new OUT.q in place. -/
def State.setOutQ (s : State) (q : List Entry) : State := { s with outQ := q }

/-- Put a new IN.q in place. -/
def State.setInQ (s : State) (q : List Entry) : State := { s with inQ := q }

/-- Put a new RX.q in place. -/
def State.setRxQ (s : State) (q : List Byte) : State := { s with rxQ := q }

/-- Put a new TX.q in place. -/
def State.setTxQ (s : State) (q : List Byte) : State := { s with txQ := q }

/-- Put four new queues in place. -/
def State.setQueues (s : State) (q : Queues) : State := { s with toQueues := q }

/-- What is left on the port once an input is taken. -/
def State.setInputs (s : State) (is : List Input) : State := { s with inputs := is }

/-- Give the response of an outcome (30_encoding.md R70, R78). -/
def State.respond (s : State) (r : Resp) : State := { s with responses := s.responses ++ [r.encode] }

/-- `free(RX) = B_RX - len(RX.q)` (00_scope.md R9). -/
def State.rxFree (s : State) : Nat := s.cfg.bRx - s.rxQ.length

/-- `free(TX) = B_TX - len(TX.q)` (00_scope.md R9). -/
def State.txFree (s : State) : Nat := s.cfg.bTx - s.txQ.length

/-! ### The write of an endpoint FIFO -/

/-- What a FIFO write leaves and answers: the queue after it, the accepted length and whether a marker was queued. -/
structure FifoWritten where
  q        : List Entry
  accepted : Nat
  zq       : Bool
deriving DecidableEq, Repr

/-- `FifoWrite(F, d)` (40_endpoint_fifo.md R103). -/
def fifoWrite (f : FifoConfig) (q : List Entry) (d : List Byte) : FifoWritten :=
  if d.length = 0 then
    if zlps q < f.zd then { q := q ++ [.zlp], accepted := 0, zq := true }
    else { q := q, accepted := 0, zq := false }
  else
    let a := min d.length (fifoFree f q)
    { q := q ++ entriesOf (d.take a), accepted := a, zq := false }

/-! ### The read of an endpoint FIFO -/

/-- The outcome of one pull step, with the queue after it (40_endpoint_fifo.md R104). -/
inductive Pulled where
  | exhausted
  | full (p : List Byte) (q : List Entry)
  | short (p : List Byte) (cut : Bool) (q : List Entry)
deriving DecidableEq, Repr

/-- `PullPacket(F, room)`, used with `room >= 1` (40_endpoint_fifo.md R104). -/
def pullPacket (f : FifoConfig) (q : List Entry) (room : Nat) : Pulled :=
  match q with
  | []      => .exhausted
  | .zlp :: rest => .short [] false rest
  | .byte b :: rest =>
    let r := run (.byte b :: rest)
    let n := min f.m (min r room)
    let p := bytesOf ((.byte b :: rest).take n)
    let left := (Entry.byte b :: rest).drop n
    if n = f.m then .full p left else .short p (decide (n < r)) left

/-- What a FIFO read returns when it does not block: the data, why it ended, and the queue after it. -/
structure FifoData where
  data : List Byte
  term : Term
  q    : List Entry
deriving DecidableEq, Repr

/-- The loop of `FifoRead` (40_endpoint_fifo.md R105), at most `n` times round. -/
def readLoop (f : FifoConfig) : Nat → List Entry → Nat → List Byte → FifoData
  | 0, q, _, acc        => { data := acc, term := .drained, q := q }
  | n + 1, q, room, acc =>
    match pullPacket f q room with
    | .exhausted      => { data := acc, term := .drained, q := q }
    | .short p cut q' => { data := acc ++ p, term := if cut then .length else .short, q := q' }
    | .full p q'      =>
      if room - p.length = 0 then { data := acc ++ p, term := .length, q := q' }
      else readLoop f n q' (room - p.length) (acc ++ p)

/-- `FifoRead(F, L)`: none for `WouldBlock` (40_endpoint_fifo.md R105). The loop runs at most `L div M + 1` times (R107; log
entry 11). -/
def fifoRead (f : FifoConfig) (q : List Entry) (l : Nat) : Option FifoData :=
  if q = [] then none
  else if l = 0 then some { data := [], term := .length, q := q }
  else some (readLoop f (l / f.m + 1) q l [])

/-! ### The steps of the Stream Buffers -/

/-- What `TxCopyIn` answers: the accepted length (41_stream_buffer.md R140). -/
def State.txAccepts (s : State) (d : List Byte) : Nat := min d.length s.txFree

/-- `TxCopyIn(d)` (41_stream_buffer.md R140). -/
def State.txCopyIn (s : State) (d : List Byte) : State := s.setTxQ (s.txQ ++ d.take (s.txAccepts d))

/-- `RxPull()`: one aggregating read of the room left in RX.q; a `WouldBlock` adds nothing and `term` is dropped
(41_stream_buffer.md R141). -/
def State.rxPull (s : State) : State :=
  match fifoRead s.cfg.outF s.outQ s.rxFree with
  | none   => s
  | some r => (s.setOutQ r.q).setRxQ (s.rxQ ++ r.data)

/-- The size of the chunk `TxFlush` moves (41_stream_buffer.md R142). -/
def State.txChunk (s : State) : Nat := min s.cfg.inF.m (min s.txQ.length (fifoFree s.cfg.inF s.inQ))

/-- `TxFlush()`: move one chunk from TX.q to IN.q; a chunk of no bytes is no write at all (41_stream_buffer.md R142). -/
def State.txFlush (s : State) : State :=
  if s.txChunk = 0 then s
  else (s.setInQ (fifoWrite s.cfg.inF s.inQ (s.txQ.take s.txChunk)).q).setTxQ (s.txQ.drop s.txChunk)

/-- The bytes `RxCopyOut(D)` returns (41_stream_buffer.md R143). -/
def State.rxCopied (s : State) (n : Nat) : List Byte := s.rxQ.take (min n s.rxQ.length)

/-- `RxCopyOut(D)` (41_stream_buffer.md R143). -/
def State.rxCopyOut (s : State) (n : Nat) : State := s.setRxQ (s.rxQ.drop (min n s.rxQ.length))

/-! ### Events outside the commands -/

/-- The event RESET: the four queues empty, the parameters kept (70_reset_and_hazards.md R200). The inputs still waiting and the
responses already given are outside the block (log entry 5). -/
def State.doReset (s : State) : State := s.setQueues Queues.empty

/-- An illegal command: no state changes and the response is ILLEGAL_CMD (60_exceptions.md R182). -/
def State.answerIllegal (s : State) : State := s.respond .illegal

end Sys2Proof.Machine
end

