-- ==== Sys2Proof/Machine/EndpointFifo.lean ====
section
/-! DEFINITION. The meanings of the Endpoint FIFO commands, spec/40_endpoint_fifo.md R110 to R113. -/

namespace Sys2Proof.Machine

/-- PUSH_OUT (40_endpoint_fifo.md R110). -/
def execPushOut (d : List Byte) (s : State) : Host.Outcome State Fault Refusal :=
  let r := fifoWrite s.cfg.outF s.outQ d
  .next ((s.setOutQ r.q).respond (.ok r.accepted (zq := r.zq)))

/-- PULL_IN (40_endpoint_fifo.md R111). -/
def execPullIn (maxLen : Nat) (s : State) : Host.Outcome State Fault Refusal :=
  match fifoRead s.cfg.inF s.inQ maxLen with
  | none   => .next (s.respond .wouldBlock)
  | some r => .next ((s.setInQ r.q).respond (.ok r.data.length r.data r.term))

/-- DEV_RD (40_endpoint_fifo.md R112). -/
def execDevRd (maxLen : Nat) (s : State) : Host.Outcome State Fault Refusal :=
  match fifoRead s.cfg.outF s.outQ maxLen with
  | none   => .next (s.respond .wouldBlock)
  | some r => .next ((s.setOutQ r.q).respond (.ok r.data.length r.data r.term))

/-- DEV_WR (40_endpoint_fifo.md R113). -/
def execDevWr (d : List Byte) (s : State) : Host.Outcome State Fault Refusal :=
  let r := fifoWrite s.cfg.inF s.inQ d
  .next ((s.setInQ r.q).respond (.ok r.accepted (zq := r.zq)))

end Sys2Proof.Machine
end

