-- ==== Sys2Proof/Machine/Flags.lean ====
section
/-! DEFINITION. The FLAGS view of spec/10_state.md R30: eight bits, a pure function of the queues and the capacities. No command
reads or writes a flag. -/

namespace Sys2Proof.Machine

/-- Bit `k` of the view (10_state.md R30): EMPTY in the even bits and FULL in the odd bits of OUT, IN, RX, TX. A FIFO is empty when
it holds no entry at all and full when it has no free byte capacity. -/
def flagBits (s : State) : List Bool :=
  [ decide (s.outQ = []),
    decide (resident s.outQ = s.cfg.outF.c),
    decide (s.inQ = []),
    decide (resident s.inQ = s.cfg.inF.c),
    decide (s.rxQ = []),
    decide (s.rxQ.length = s.cfg.bRx),
    decide (s.txQ = []),
    decide (s.txQ.length = s.cfg.bTx) ]

/-- The number of a list of bits, bit 0 first. -/
def bitsValue : List Bool → Nat
  | []      => 0
  | b :: bs => b.toNat + 2 * bitsValue bs

/-- `FLAGS` (10_state.md R30). -/
def flags (s : State) : BitVec 8 := BitVec.ofNat 8 (bitsValue (flagBits s))

end Sys2Proof.Machine
end

