-- ==== Sys2Proof/Machine/Operands.lean ====
section
/-! DEFINITION. The one operand form that reads the machine: a register number of format G (spec/30_encoding.md R72), by
`RegRead` over the status register file (42_status_access.md R170). The other forms are numbers and payloads, taken from the
command by the decoder (30_encoding.md R73). -/

namespace Sys2Proof.Machine

/-- `RegRead(r)`: the value column of 42_status_access.md R170. -/
def regRead (s : State) : Reg → Nat
  | .mOut    => s.cfg.outF.m
  | .cOut    => s.cfg.outF.c
  | .zdOut   => s.cfg.outF.zd
  | .attrOut => s.cfg.outF.attr.toNat
  | .mIn     => s.cfg.inF.m
  | .cIn     => s.cfg.inF.c
  | .zdIn    => s.cfg.inF.zd
  | .attrIn  => s.cfg.inF.attr.toNat
  | .bRx     => s.cfg.bRx
  | .bTx     => s.cfg.bTx
  | .cntOut  => resident s.outQ
  | .zcntOut => zlps s.outQ
  | .cntIn   => resident s.inQ
  | .zcntIn  => zlps s.inQ
  | .cntRx   => s.rxQ.length
  | .cntTx   => s.txQ.length
  | .flags   => (flags s).toNat

end Sys2Proof.Machine
end

