-- ==== Sys2Proof/Machine/StatusAccess.lean ====
section
/-! DEFINITION. The meaning of RDREG, spec/42_status_access.md R171. -/

namespace Sys2Proof.Machine

/-- RDREG: answer the value of the register at this moment and change nothing (42_status_access.md R171). -/
def execRdreg (r : Reg) (s : State) : Host.Outcome State Fault Refusal :=
  .next (s.respond (.ok (regRead s r)))

end Sys2Proof.Machine
end

