-- ==== Sys2Proof/Machine/StreamBuffer.lean ====
section
/-! DEFINITION. The meanings of the Stream Buffer commands, spec/41_stream_buffer.md R145 to R147. -/

namespace Sys2Proof.Machine

/-- APP_WR: copy in, then flush one chunk, always both; the response counts the bytes copied in (41_stream_buffer.md R145). -/
def execAppWr (d : List Byte) (s : State) : Host.Outcome State Fault Refusal :=
  .next ((s.txCopyIn d).txFlush.respond (.ok (s.txAccepts d)))

/-- APP_RD: pull, always; then WOULD_BLOCK if RX.q is still empty, else copy out (41_stream_buffer.md R146). -/
def execAppRd (dest : Nat) (s : State) : Host.Outcome State Fault Refusal :=
  let u := s.rxPull
  if u.rxQ = [] then .next (u.respond .wouldBlock)
  else .next ((u.rxCopyOut dest).respond (.ok (u.rxCopied dest).length (u.rxCopied dest)))

/-- POLL: flush one chunk and answer its size; no pull (41_stream_buffer.md R147). -/
def execPoll (s : State) : Host.Outcome State Fault Refusal :=
  .next (s.txFlush.respond (.ok s.txChunk))

end Sys2Proof.Machine
end

