-- ==== Sys2Proof/Machine/Dispatch.lean ====
section
/-! DEFINITION. The dispatch of the eight commands of spec/30_encoding.md R74 to their meanings. -/

namespace Sys2Proof.Machine

def exec (i : Instr) (s : State) : Host.Outcome State Fault Refusal :=
  match i with
  | .pushOut d => Sys2Proof.Machine.execPushOut d s
  | .pullIn maxLen => Sys2Proof.Machine.execPullIn maxLen s
  | .devRd maxLen => Sys2Proof.Machine.execDevRd maxLen s
  | .devWr d => Sys2Proof.Machine.execDevWr d s
  | .appWr d => Sys2Proof.Machine.execAppWr d s
  | .appRd dest => Sys2Proof.Machine.execAppRd dest s
  | .poll => Sys2Proof.Machine.execPoll s
  | .rdreg r => Sys2Proof.Machine.execRdreg r s

end Sys2Proof.Machine
end

