-- ==== Sys2Proof/Machine/Block.lean ====
section
/-! DEFINITION. The step of the block as the spec has it: a function of the parameters, one input and the four queues, which
answers the next four queues and the responses given (spec/10_state.md R37, 20_memory.md R57). The command, the parameters, the
user who sent it and time are fields of nothing it updates. -/

namespace Sys2Proof.Machine

/-- The machine around these queues with nothing else on the port and nothing answered yet. -/
def State.around (k : Config) (q : Queues) : State where
  toQueues  := q
  cfg       := k
  inputs    := []
  responses := []

/-- One input, taken to its end. A command is decoded; a legal one is executed and an illegal one answered ILLEGAL_CMD before
anything else is looked at (60_exceptions.md R186). RESET empties the queues (70_reset_and_hazards.md R200). -/
def State.take (s : State) : Input → Host.Outcome State Fault Refusal
  | .reset     => .next s.doReset
  | .command c =>
    match decode c with
    | .ok i    => exec i s
    | .error _ => .next s.answerIllegal

/-- The block's step: built with `k` and holding `q`, it takes the input `x` and answers the next queues and the responses it gave,
one for a command and none for RESET (10_state.md R33, R37; 20_memory.md R54, R57). -/
def blockStep (k : Config) (x : Input) (q : Queues) : Host.Outcome (Queues × List Response) Fault Refusal :=
  match (State.around k q).take x with
  | .next t    => .next (t.toQueues, t.responses)
  | .fault r   => .fault r
  | .refused r => .refused r

/-- What the port holds after a step of the block that leaves the waiting inputs `rest`: its queues in place, its responses given. -/
def State.accept (s : State) (rest : List Input) (r : Queues × List Response) : State where
  toQueues  := r.1
  cfg       := s.cfg
  inputs    := rest
  responses := s.responses ++ r.2

end Sys2Proof.Machine
end

