-- ==== Sys2Proof/Machine/Step.lean ====
section
/-! DEFINITION. One step of the machine as the host runs it: hand the oldest input to the block's step and put what it answers in
place (spec/30_encoding.md R70, 20_memory.md R54 and R57). -/

namespace Sys2Proof.Machine

/-- Hand the oldest input to the block's step, with the parameters and the queues, and put its queues and responses in place. With
no input the block is idle and holds its state (10_state.md R36; log entry 4). A configuration outside its ranges is refused (log
entry 6). -/
def step (s : State) : Host.Outcome State Fault Refusal :=
  if s.cfg.legal then
    match s.inputs with
    | []        => .next s
    | x :: rest =>
      match blockStep s.cfg x s.toQueues with
      | .next r    => .next (s.accept rest r)
      | .fault r   => .fault r
      | .refused r => .refused r
  else .refused .illFormedConfig

/-- The command of an opcode-table word handed over as the next one to take (log entries 8 and 9). -/
def State.withFetchWord (s : State) (nbits w : Nat) : State :=
  s.setInputs (.command (commandOfBits nbits w) :: s.inputs)

end Sys2Proof.Machine
end

