-- ==== Sys2Proof/Machine/Text.lean ====
section
/-! DEFINITION. The textual form of commands and responses, spec/30_encoding.md R83, and the source's call names as other names of
the commands, R84. A line is a list of characters, cut into tokens and parsed; tokens are also printed. Nothing of the machine
reads this file: it is the spec's spelling of what goes in and out. -/

namespace Sys2Proof.Text

/-- The fixed words of the grammar (R83). -/
inductive Keyword where
  | pushOut | devWr | appWr | pullIn | devRd | appRd | poll | rdreg
  | seq | ok | wouldBlock | illegalCmd | val | term | zq | data | short | length | drained
deriving DecidableEq, Repr

/-- The tokens of a line (R83): words, register names, numbers and punctuation. -/
inductive Token where
  | word (k : Keyword)
  | reg (r : Reg)
  | num (n : Nat)
  | lbracket | rbracket | lparen | rparen | comma | equals | arrow
deriving DecidableEq, Repr

/-- How the fixed words are spelt (R83). -/
def Keyword.spelling : Keyword → String
  | .pushOut    => "PUSH_OUT"
  | .devWr      => "DEV_WR"
  | .appWr      => "APP_WR"
  | .pullIn     => "PULL_IN"
  | .devRd      => "DEV_RD"
  | .appRd      => "APP_RD"
  | .poll       => "POLL"
  | .rdreg      => "RDREG"
  | .seq        => "seq"
  | .ok         => "OK"
  | .wouldBlock => "WOULD_BLOCK"
  | .illegalCmd => "ILLEGAL_CMD"
  | .val        => "val"
  | .term       => "term"
  | .zq         => "zq"
  | .data       => "data"
  | .short      => "SHORT"
  | .length     => "LENGTH"
  | .drained    => "DRAINED"

/-- The register names (42_status_access.md R170). -/
def regSpelling : Reg → String
  | .mOut    => "M_OUT"
  | .cOut    => "C_OUT"
  | .zdOut   => "ZD_OUT"
  | .attrOut => "ATTR_OUT"
  | .mIn     => "M_IN"
  | .cIn     => "C_IN"
  | .zdIn    => "ZD_IN"
  | .attrIn  => "ATTR_IN"
  | .bRx     => "B_RX"
  | .bTx     => "B_TX"
  | .cntOut  => "CNT_OUT"
  | .zcntOut => "ZCNT_OUT"
  | .cntIn   => "CNT_IN"
  | .zcntIn  => "ZCNT_IN"
  | .cntRx   => "CNT_RX"
  | .cntTx   => "CNT_TX"
  | .flags   => "FLAGS"

/-- All fixed words. -/
def keywords : List Keyword :=
  [.pushOut, .devWr, .appWr, .pullIn, .devRd, .appRd, .poll, .rdreg, .seq, .ok, .wouldBlock, .illegalCmd, .val, .term, .zq,
   .data, .short, .length, .drained]

/-- All registers. -/
def regs : List Reg :=
  [.mOut, .cOut, .zdOut, .attrOut, .mIn, .cIn, .zdIn, .attrIn, .bRx, .bTx, .cntOut, .zcntOut, .cntIn, .zcntIn, .cntRx, .cntTx,
   .flags]

/-! ### From characters to tokens -/

/-- The value of a decimal or hexadecimal digit (either case; log entry 18). -/
def digitValue (c : Char) : Option Nat :=
  if '0' ≤ c ∧ c ≤ '9' then some (c.toNat - '0'.toNat)
  else if 'a' ≤ c ∧ c ≤ 'f' then some (c.toNat - 'a'.toNat + 10)
  else if 'A' ≤ c ∧ c ≤ 'F' then some (c.toNat - 'A'.toNat + 10)
  else none

/-- The number of a digit sequence in a base, continued from `acc`. -/
def numberFrom (base acc : Nat) : List Char → Option Nat
  | []      => some acc
  | c :: cs =>
    match digitValue c with
    | some v => if v < base then numberFrom base (acc * base + v) cs else none
    | none   => none

/-- `number ::= decimal | "0x" hexadecimal` (R83). -/
def numberOf : List Char → Option Nat
  | '0' :: 'x' :: c :: cs => numberFrom 16 0 (c :: cs)
  | c :: cs               => numberFrom 10 0 (c :: cs)
  | []                    => none

/-- The token of a sequence of letters, digits and underscores. -/
def wordToken (cs : List Char) : Option Token :=
  match keywords.find? (fun k => k.spelling.toList = cs) with
  | some k => some (.word k)
  | none   =>
    match regs.find? (fun r => (regSpelling r).toList = cs) with
    | some r => some (.reg r)
    | none   => (numberOf cs).map .num

/-- The token of a punctuation character. -/
def punctuation : Char → Option Token
  | '[' => some .lbracket
  | ']' => some .rbracket
  | '(' => some .lparen
  | ')' => some .rparen
  | ',' => some .comma
  | '=' => some .equals
  | _   => none

/-- Put the token of the word read so far (kept in reverse) before the tokens that follow it. -/
def withWord (cur : List Char) (rest : Option (List Token)) : Option (List Token) :=
  if cur = [] then rest
  else
    match wordToken cur.reverse, rest with
    | some t, some ts => some (t :: ts)
    | _, _            => none

/-- The tokens of a line; spaces only separate (log entry 18). `cur` is the word being read, in reverse. -/
def tokensFrom (cur : List Char) : List Char → Option (List Token)
  | []             => withWord cur (some [])
  | '-' :: '>' :: cs => withWord cur ((tokensFrom [] cs).map (Token.arrow :: ·))
  | c :: cs        =>
    if c = ' ' then withWord cur (tokensFrom [] cs)
    else
      match punctuation c with
      | some t => withWord cur ((tokensFrom [] cs).map (t :: ·))
      | none   => tokensFrom (c :: cur) cs

/-- The tokens of a line. -/
def tokens (line : List Char) : Option (List Token) := tokensFrom [] line

/-! ### Parsing -/

/-- `seq(s, n)`: the bytes `(s + i) mod 256` for `i = 0 .. n-1` (R83). -/
def seqBytes (s : Nat) : Nat → List Byte
  | 0     => []
  | n + 1 => BitVec.ofNat 8 s :: seqBytes (s + 1) n

/-- The rest of a bracketed list after its opening bracket or a comma: numbers 0 to 255 (R83, 00_scope.md R8). -/
def parseItems : List Token → Option (List Byte × List Token)
  | .num n :: .rbracket :: ts => if n < 256 then some ([BitVec.ofNat 8 n], ts) else none
  | .num n :: .comma :: ts    =>
    match parseItems ts with
    | some (d, rest) => if n < 256 then some (BitVec.ofNat 8 n :: d, rest) else none
    | none           => none
  | _                         => none

/-- `bytes ::= "[" ... "]" | "seq(" number "," number ")"` (R83). -/
def parseBytes : List Token → Option (List Byte × List Token)
  | .lbracket :: .rbracket :: ts => some ([], ts)
  | .lbracket :: ts              => parseItems ts
  | .word .seq :: .lparen :: .num s :: .comma :: .num n :: .rparen :: ts => some (seqBytes s n, ts)
  | _                            => none

/-- A write command: its bytes and nothing after them, no more than a payload holds. -/
def parseWrite (op : Nat) (ts : List Token) : Option Command :=
  match parseBytes ts with
  | some (d, []) => if d.length ≤ maxLength then some ⟨commandWord op d.length, d⟩ else none
  | _            => none

/-- A command with one 16-bit number. -/
def parseNumber (op : Nat) : List Token → Option Command
  | [.num n] => if n ≤ maxLength then some ⟨commandWord op n, []⟩ else none
  | _        => none

/-- `command` of the grammar, assembled (R83). A register number need not be defined: the command is then an illegal one. -/
def parseCommand : List Token → Option Command
  | .word .pushOut :: ts     => parseWrite 0x1 ts
  | .word .pullIn :: ts      => parseNumber 0x2 ts
  | .word .devRd :: ts       => parseNumber 0x3 ts
  | .word .devWr :: ts       => parseWrite 0x4 ts
  | .word .appWr :: ts       => parseWrite 0x5 ts
  | .word .appRd :: ts       => parseNumber 0x6 ts
  | [.word .poll]            => some ⟨commandWord 0x7 0, []⟩
  | [.word .rdreg, .reg r]   => some ⟨commandWord 0x8 r.number, []⟩
  | .word .rdreg :: ts       => parseNumber 0x8 ts
  | _                        => none

/-- A line of text as the command it assembles to (R83). -/
def assemble (line : List Char) : Option Command := (tokens line).bind parseCommand

/-- The optional `term=` (R83): omitted means NONE. -/
def parseTerm : List Token → Option (Term × List Token)
  | .word .term :: .equals :: .word .short :: ts   => some (.short, ts)
  | .word .term :: .equals :: .word .length :: ts  => some (.length, ts)
  | .word .term :: .equals :: .word .drained :: ts => some (.drained, ts)
  | .word .term :: _                               => none
  | ts                                             => some (.none, ts)

/-- The optional `zq=1` (R83): omitted means 0. -/
def parseZq : List Token → Option (Bool × List Token)
  | .word .zq :: .equals :: .num n :: ts => if n = 1 then some (true, ts) else none
  | .word .zq :: _                       => none
  | ts                                   => some (false, ts)

/-- The optional `data=` (R83): omitted means no data. -/
def parseData : List Token → Option (List Byte × List Token)
  | .word .data :: .equals :: ts => parseBytes ts
  | .word .data :: _             => none
  | ts                           => some ([], ts)

/-- `response` of the grammar (R83). -/
def parseResponse : List Token → Option Resp
  | [.arrow, .word .wouldBlock] => some .wouldBlock
  | [.arrow, .word .illegalCmd] => some .illegal
  | .arrow :: .word .ok :: .word .val :: .equals :: .num v :: ts =>
    match parseTerm ts with
    | none => none
    | some (tm, ts1) =>
      match parseZq ts1 with
      | none => none
      | some (z, ts2) =>
        match parseData ts2 with
        | some (d, []) => if v ≤ maxLength then some (.ok v d tm z) else none
        | _            => none
  | _ => none

/-! ### Printing -/

/-- Numbers and commas up to the closing bracket. -/
def printItems : List Byte → List Token
  | []           => [.rbracket]
  | [b]          => [.num b.toNat, .rbracket]
  | b :: c :: bs => .num b.toNat :: .comma :: printItems (c :: bs)

/-- A byte sequence in brackets (R83). -/
def printBytes (d : List Byte) : List Token := .lbracket :: printItems d

/-- A command as tokens (R83). -/
def printInstr : Instr → List Token
  | .pushOut d => .word .pushOut :: printBytes d
  | .pullIn n  => [.word .pullIn, .num n]
  | .devRd n   => [.word .devRd, .num n]
  | .devWr d   => .word .devWr :: printBytes d
  | .appWr d   => .word .appWr :: printBytes d
  | .appRd n   => [.word .appRd, .num n]
  | .poll      => [.word .poll]
  | .rdreg r   => [.word .rdreg, .reg r]

/-- `term=`, left out for NONE (R83). -/
def printTerm : Term → List Token
  | .none    => []
  | .short   => [.word .term, .equals, .word .short]
  | .length  => [.word .term, .equals, .word .length]
  | .drained => [.word .term, .equals, .word .drained]

/-- `zq=1`, left out for 0 (R83). -/
def printZq (z : Bool) : List Token := if z then [.word .zq, .equals, .num 1] else []

/-- `data=`, left out for no data (R83). -/
def printData (d : List Byte) : List Token := if d = [] then [] else .word .data :: .equals :: printBytes d

/-- A response as tokens (R83). -/
def printResponse (r : Resp) : List Token :=
  match r.status with
  | .ok         => .arrow :: .word .ok :: .word .val :: .equals :: .num r.val :: (printTerm r.term ++ printZq r.zq ++ printData r.data)
  | .wouldBlock => [.arrow, .word .wouldBlock]
  | .illegalCmd => [.arrow, .word .illegalCmd]

/-- A token as characters (R83). -/
def Token.chars : Token → List Char
  | .word k   => k.spelling.toList
  | .reg r    => (regSpelling r).toList
  | .num n    => Nat.toDigits 10 n
  | .lbracket => ['[']
  | .rbracket => [']']
  | .lparen   => ['(']
  | .rparen   => [')']
  | .comma    => [',']
  | .equals   => ['=']
  | .arrow    => ['-', '>']

/-- A token spelt with letters and digits, or the arrow. -/
def Token.wordy : Token → Bool
  | .word _   => true
  | .reg _    => true
  | .num _    => true
  | .arrow    => true
  | .lbracket => false
  | .rbracket => false
  | .lparen   => false
  | .rparen   => false
  | .comma    => false
  | .equals   => false

/-- Tokens as one line, with a space between two words and between a word and a list, as R83 writes them. -/
def lineOf : List Token → List Char
  | []           => []
  | [t]          => t.chars
  | t :: u :: ts =>
    if t.wordy ∧ (u.wordy ∨ u = .lbracket) then t.chars ++ ' ' :: lineOf (u :: ts) else t.chars ++ lineOf (u :: ts)

/-! ### The source's call names (30_encoding.md R84) -/

/-- The calls of the source's interface that are in scope (R84). -/
inductive SourceCall where
  | pushToOutEndpoint (d : List Byte)
  | pullFromInEndpoint (maxLen : Nat)
  | write (by_ : Side) (d : List Byte)
  | read (by_ : Side) (maxLen : Nat)
  | appWrite (d : List Byte)
  | appRead (dest : Nat)
  | poll
deriving DecidableEq, Repr

/-- The one command a call is (R84). -/
def SourceCall.expand : SourceCall → Instr
  | .pushToOutEndpoint d  => .pushOut d
  | .pullFromInEndpoint n => .pullIn n
  | .write .host d        => .pushOut d
  | .write .device d      => .devWr d
  | .read .host n         => .pullIn n
  | .read .device n       => .devRd n
  | .appWrite d           => .appWr d
  | .appRead n            => .appRd n
  | .poll                 => .poll

/-- The source-level result of `pull_from_in_endpoint`: the data alone, so WOULD_BLOCK reads as no bytes (R84, 90_conflicts.md
C5). -/
def pulledBytes (p : Response) : List Byte := p.data

end Sys2Proof.Text
end

