-- ==== Sys2Proof/Safety.lean ====
section
/-! DEFINITION. The terms claims use: the invariants of the queues (spec/10_state.md R22, R25), what a response may look like
(30_encoding.md R78 to R81), the users' convention (60_exceptions.md R188), what the bytes of a run are (20_memory.md R62, R63),
and a run that never stops. -/

namespace Sys2Proof

/-- The convention of which side sends which command; the block does not check it (60_exceptions.md R188). -/
def Instr.sentBy : Instr → Side → Bool
  | .pushOut _, .host   => true
  | .pullIn _, .host    => true
  | .rdreg _, .host     => true
  | .devRd _, .device   => true
  | .devWr _, .device   => true
  | .appWr _, .device   => true
  | .appRd _, .device   => true
  | .poll, .device      => true
  | .rdreg _, .device   => true
  | .pushOut _, .device => false
  | .pullIn _, .device  => false
  | .devRd _, .host     => false
  | .devWr _, .host     => false
  | .appWr _, .host     => false
  | .appRd _, .host     => false
  | .poll, .host        => false

end Sys2Proof

namespace Sys2Proof.Machine

/-- The invariants (a) and (b) of an endpoint FIFO (10_state.md R22). -/
abbrev fifoBounded (f : FifoConfig) (q : List Entry) : Prop := resident q ≤ f.c ∧ zlps q ≤ f.zd

/-- The invariant of a state: a legal configuration, both FIFOs and both Stream Buffers within their bounds (10_state.md R22, R25). -/
abbrev State.Inv (s : State) : Prop :=
  s.cfg.legal ∧ fifoBounded s.cfg.outF s.outQ ∧ fifoBounded s.cfg.inF s.inQ ∧
    s.rxQ.length ≤ s.cfg.bRx ∧ s.txQ.length ≤ s.cfg.bTx

/-- A response the block may give: bits [24:16] zero; OK with data, if any, counted by VAL, or one of the two words for the other
statuses, with no data (30_encoding.md R78, R79, R81). -/
abbrev responseLegal (p : Response) : Prop :=
  p.zeroField = 0 ∧
    (p.statusField = 0 ∧ (p.data = [] ∨ p.data.length = p.valField) ∨
      p = ⟨0x10000000#32, []⟩ ∨ p = ⟨0x20000000#32, []⟩)

/-- The invariant of the responses given. -/
abbrev State.responsesLegal (s : State) : Prop := ∀ p ∈ s.responses, responseLegal p

/-- Two states the commands cannot tell apart: the same parameters and the same four queues (10_state.md R33). -/
abbrev sameQueues (s u : State) : Prop :=
  s.cfg = u.cfg ∧ s.outQ = u.outQ ∧ s.inQ = u.inQ ∧ s.rxQ = u.rxQ ∧ s.txQ = u.txQ

/-! ### The bytes of a run (20_memory.md R62, R63) -/

/-- The accepted leading bytes of a PUSH_OUT, given its response; no bytes for another command. -/
def acceptedOut (x : Command × Response) : List Byte :=
  match decode x.1 with
  | .ok (.pushOut d) => d.take x.2.valField
  | _                => []

/-- The bytes an APP_RD or a DEV_RD returned. -/
def returnedOut (x : Command × Response) : List Byte :=
  match decode x.1 with
  | .ok (.appRd _) => x.2.data
  | .ok (.devRd _) => x.2.data
  | _              => []

/-- The accepted leading bytes of an APP_WR or a DEV_WR, given its response. -/
def acceptedIn (x : Command × Response) : List Byte :=
  match decode x.1 with
  | .ok (.appWr d) => d.take x.2.valField
  | .ok (.devWr d) => d.take x.2.valField
  | _              => []

/-- The bytes a PULL_IN returned. -/
def returnedIn (x : Command × Response) : List Byte :=
  match decode x.1 with
  | .ok (.pullIn _) => x.2.data
  | _               => []

/-- No DEV_RD is taken while RX.q holds bytes in the first `k` steps of the run from `s` (20_memory.md R63, 70_reset_and_hazards.md
R210). -/
def State.receiveInOrder (s : State) (k : Nat) : Prop :=
  ∀ (n : Nat) (u : State) (c : Command) (rest : List Input) (l : Nat), n < k →
    Host.Core.run Sys2Proof.core n s = .next u → u.inputs = .command c :: rest → decode c = .ok (.devRd l) → u.rxQ = []

/-- No DEV_WR is taken while TX.q holds bytes in the first `k` steps of the run from `s` (20_memory.md R63, 70_reset_and_hazards.md
R210). -/
def State.transmitInOrder (s : State) (k : Nat) : Prop :=
  ∀ (n : Nat) (u : State) (c : Command) (rest : List Input) (d : List Byte), n < k →
    Host.Core.run Sys2Proof.core n s = .next u → u.inputs = .command c :: rest → decode c = .ok (.devWr d) → u.txQ = []

/-! ### Safe runs -/

/-- How many of the inputs are commands, and so ask for a response. -/
def commandCount : List Input → Nat
  | []                => 0
  | .command _ :: is  => commandCount is + 1
  | .reset :: is      => commandCount is

/-- A safe run of `n` steps ends in a state: it met neither a fault nor a refusal (60_exceptions.md R191). -/
def runsSafely (n : Nat) (s : State) : Prop := ∃ t : State, Host.Core.run Sys2Proof.core n s = .next t

end Sys2Proof.Machine
end

