-- ==== Sys2Proof/Certificates/Slice0/Obligations.lean ====
section
/-! DEFINITION. The statements for the provers. Each docstring names the rule of spec/ it formalises. Where a rule carries the
spec's mark `[decision: see 92_eei_decisions.md D<n>]` the docstring names that decision; where it carries `[derived: ...]` the
statement has basis derived. -/

namespace Sys2Proof.Statements

/-- Bits [31:28] of a word by arithmetic (30_encoding.md R71). -/
def opOf (w : Word) : Nat := w.toNat / 2 ^ 28

/-- Bits [27:16] of a word by arithmetic (30_encoding.md R71). -/
def rsvOf (w : Word) : Nat := w.toNat / 2 ^ 16 % 2 ^ 12

/-- Bits [15:0] of a word by arithmetic (30_encoding.md R71). -/
def argOf (w : Word) : Nat := w.toNat % 2 ^ 16

/-- The register map written out (42_status_access.md R170). -/
def registerMap : List (Nat × Reg) :=
  [(0x0000, .mOut), (0x0001, .cOut), (0x0002, .zdOut), (0x0003, .attrOut), (0x0004, .mIn), (0x0005, .cIn), (0x0006, .zdIn),
   (0x0007, .attrIn), (0x0008, .bRx), (0x0009, .bTx), (0x0010, .cntOut), (0x0011, .zcntOut), (0x0012, .cntIn),
   (0x0013, .zcntIn), (0x0014, .cntRx), (0x0015, .cntTx), (0x0016, .flags)]

/-- The reserved register numbers (42_status_access.md R170). -/
def reservedNumber (n : Nat) : Prop := 0x000A ≤ n ∧ n ≤ 0x000F ∨ 0x0017 ≤ n

/-- The illegal commands as 30_encoding.md R77 lists them. -/
def illegal (c : Command) : Prop :=
  rsvOf c.cw ≠ 0 ∨ opOf c.cw = 0 ∨ 9 ≤ opOf c.cw ∨
    ((opOf c.cw = 1 ∨ opOf c.cw = 4 ∨ opOf c.cw = 5) ∧ c.payload.length ≠ argOf c.cw) ∨
    ((opOf c.cw = 2 ∨ opOf c.cw = 3 ∨ opOf c.cw = 6 ∨ opOf c.cw = 7 ∨ opOf c.cw = 8) ∧ c.payload ≠ []) ∨
    (opOf c.cw = 7 ∧ argOf c.cw ≠ 0) ∨
    (opOf c.cw = 8 ∧ reservedNumber (argOf c.cw))

/-- A command of operation code `op` is illegal exactly under `bad`. -/
def onlyIllegalWhen (op : Nat) (bad : Command → Prop) : Prop :=
  ∀ c : Command, opOf c.cw = op → ((∃ e, decode c = .error e) ↔ bad c)

/-- The response word of an OK outcome (30_encoding.md R78 with STATUS 0). -/
def okWord (term zq val : Nat) : Word := BitVec.ofNat 32 (term * 2 ^ 26 + zq * 2 ^ 25 + val)

/-- The codes of TERM (30_encoding.md R80). -/
def termCode (t : Term) : Nat :=
  match t with
  | .none => 0 | .short => 1 | .length => 2 | .drained => 3

/-- The codes of STATUS (30_encoding.md R79). -/
def statusCode (t : Status) : Nat :=
  match t with
  | .ok => 0 | .wouldBlock => 1 | .illegalCmd => 2

/-- A queue that begins with no byte: byte entries right before it are a whole run (00_scope.md R9). -/
def endsRun (rest : List Machine.Entry) : Prop := rest = [] ∨ ∃ q, rest = Machine.Entry.zlp :: q

/-- What the queue of a FIFO becomes when `d` is written to it (40_endpoint_fifo.md R103). -/
def afterWrite (f : FifoConfig) (q : List Machine.Entry) (d : List Byte) : List Machine.Entry :=
  if d = [] then (if Machine.zlps q < f.zd then q ++ [.zlp] else q)
  else q ++ (d.take (f.c - Machine.resident q)).map .byte

/-- The response word of such a write (40_endpoint_fifo.md R103, 30_encoding.md R78). -/
def writeWord (f : FifoConfig) (q : List Machine.Entry) (d : List Byte) : Word :=
  if d = [] then (if Machine.zlps q < f.zd then 0x02000000#32 else 0x00000000#32)
  else BitVec.ofNat 32 (min d.length (f.c - Machine.resident q))

/-- The command POLL (41_stream_buffer.md R147). -/
def pollInput : Machine.Input := .command ⟨0x70000000#32, []⟩

end Sys2Proof.Statements

open Sys2Proof Sys2Proof.Machine Sys2Proof.Statements

/-! ### Encoding -/

/-- 30_encoding.md R71 (the layout is the spec's decision D20): CW is OP, RSV and ARG in bits [31:28], [27:16], [15:0], and a word
whose RSV is not 0 decodes to nothing. -/
def Obligations.CommandWordFields : Prop :=
  (∀ op rsv arg : Nat, op < 2 ^ 4 → rsv < 2 ^ 12 → arg < 2 ^ 16 →
    opField (BitVec.ofNat 32 (op * 2 ^ 28 + rsv * 2 ^ 16 + arg)) = op ∧
    rsvField (BitVec.ofNat 32 (op * 2 ^ 28 + rsv * 2 ^ 16 + arg)) = rsv ∧
    argField (BitVec.ofNat 32 (op * 2 ^ 28 + rsv * 2 ^ 16 + arg)) = arg) ∧
  (∀ w : Word, w.toNat = opField w * 2 ^ 28 + rsvField w * 2 ^ 16 + argField w) ∧
  (∀ c : Command, rsvField c.cw ≠ 0 → ∃ e, decode c = .error e)

/-- The worked encodings of 30_encoding.md R85 and of 95_test_vectors.md A1 to A8 and H1 to H6, each written out. -/
def Obligations.WorkedEncodingsDecode : Prop :=
  decode ⟨0x10000003#32, [0x01#8, 0x02#8, 0x03#8]⟩ = .ok (.pushOut [0x01#8, 0x02#8, 0x03#8]) ∧
  decode ⟨0x20000040#32, []⟩ = .ok (.pullIn 64) ∧
  decode ⟨0x3000012C#32, []⟩ = .ok (.devRd 300) ∧
  decode ⟨0x40000000#32, []⟩ = .ok (.devWr []) ∧
  decode ⟨0x50000002#32, [0x41#8, 0x42#8]⟩ = .ok (.appWr [0x41#8, 0x42#8]) ∧
  decode ⟨0x60000000#32, []⟩ = .ok (.appRd 0) ∧
  decode ⟨0x70000000#32, []⟩ = .ok .poll ∧
  decode ⟨0x80000016#32, []⟩ = .ok (.rdreg .flags) ∧
  decode ⟨0x00000000#32, []⟩ = .error .reservedOpcode ∧
  decode ⟨0x90000000#32, []⟩ = .error .reservedOpcode ∧
  decode ⟨0xF000FFFF#32, []⟩ = .error .reservedOpcode ∧
  decode ⟨0x10010003#32, [0x01#8, 0x02#8, 0x03#8]⟩ = .error .reservedBits ∧
  decode ⟨0x2FFF0040#32, []⟩ = .error .reservedBits ∧
  decode ⟨0x70000001#32, []⟩ = .error .pollArgument

/-- 30_encoding.md R76 (decision D20): `Decode(CW, payload)`, with the fields taken by arithmetic and the register map written
out. -/
def Obligations.DecodeFollowsRuleTable : Prop :=
  ∀ c : Command, (decode c).toOption =
    if rsvOf c.cw ≠ 0 then none
    else if opOf c.cw = 0x1 then (if c.payload.length = argOf c.cw then some (.pushOut c.payload) else none)
    else if opOf c.cw = 0x2 then (if c.payload.length = 0 then some (.pullIn (argOf c.cw)) else none)
    else if opOf c.cw = 0x3 then (if c.payload.length = 0 then some (.devRd (argOf c.cw)) else none)
    else if opOf c.cw = 0x4 then (if c.payload.length = argOf c.cw then some (.devWr c.payload) else none)
    else if opOf c.cw = 0x5 then (if c.payload.length = argOf c.cw then some (.appWr c.payload) else none)
    else if opOf c.cw = 0x6 then (if c.payload.length = 0 then some (.appRd (argOf c.cw)) else none)
    else if opOf c.cw = 0x7 then (if c.payload.length = 0 ∧ argOf c.cw = 0 then some .poll else none)
    else if opOf c.cw = 0x8 then
      (if c.payload.length = 0 then (registerMap.lookup (argOf c.cw)).map .rdreg else none)
    else none

/-- 30_encoding.md R77 and 60_exceptions.md R182 (decision D17): exactly the listed commands are illegal; an illegal command, and no
other, is answered `RW = 0x20000000` with no data, whatever the state, and changes no queue; the three commands R77 names as ordinary
ones that leave the queues as they are. -/
def Obligations.IllegalCommandsChangeNothing : Prop :=
  (∀ c : Command, illegal c ↔ ∃ e, decode c = .error e) ∧
  (∀ (s : State) (c : Command) (rest : List Input), s.cfg.legal → s.inputs = .command c :: rest → illegal c →
    step s = .next { s with inputs := rest, responses := s.responses ++ [⟨0x20000000#32, []⟩] }) ∧
  (∀ (s t : State) (c : Command) (rest : List Input) (p : Response), s.Inv → s.inputs = .command c :: rest → step s = .next t →
    t.responses = s.responses ++ [p] → (p.statusField = 2 ↔ illegal c)) ∧
  (∀ s : State, s.txQ = [] → exec .poll s = .next { s with responses := s.responses ++ [⟨0x00000000#32, []⟩] }) ∧
  (∀ s : State, s.cfg.outF.zd = 0 →
    exec (.pushOut []) s = .next { s with responses := s.responses ++ [⟨0x00000000#32, []⟩] }) ∧
  (∀ (s : State) (r : Reg), ∃ p, exec (.rdreg r) s = .next { s with responses := s.responses ++ [p] })

/-- Decoding an encoded instruction gives it back, for every instruction and every operand its encoding admits. -/
def Obligations.DecodeOfEncodeIsIdentity : Prop :=
  ∀ i : Instr, i.wellFormed = true → decode (encode i) = .ok i

/-- Every legal command has one meaning: what it decodes to is well-formed and encodes to that command alone. -/
def Obligations.EncodeOfDecodeIsIdentity : Prop :=
  ∀ (c : Command) (i : Instr), decode c = .ok i → i.wellFormed = true ∧ encode i = c

/-- The byte-stream form of commands (30_encoding.md section 6): the bytes of well-formed commands one after another, then a
command not yet complete, are cut back into exactly those commands and that rest. -/
def Obligations.CommandStreamIsCutBack : Prop :=
  ∀ (is : List Instr) (tail : List Byte), (∀ i ∈ is, i.wellFormed = true) → takeCommand tail = none →
    readCommands ((is.map encode).flatMap Command.toBytes ++ tail) = (is.map encode, tail)

/-- The byte-stream form of responses (30_encoding.md section 6): the data after a response word are VAL bytes for an OK answer to
a command of format R and none otherwise, so a response is cut off the front of a stream exactly. -/
def Obligations.ResponseStreamIsCutBack : Prop :=
  ∀ (fmt : Format) (r : Resp) (tail : List Byte), r.val ≤ 65535 →
    r.data.length = (if fmt = .r ∧ r.status = .ok then r.val else 0) →
    takeResponse fmt (r.encode.toBytes ++ tail) = some (r.encode, tail)

/-- 30_encoding.md R78 (decision D21): the response word's fields and formula; in every response the block gives, bits [24:16] are
zero and ZQ is 1 exactly when the command put a marker into a FIFO. -/
def Obligations.ResponseWordFields : Prop :=
  (∀ r : Resp, r.val ≤ 65535 →
    r.encode.rw.toNat = statusCode r.status * 2 ^ 28 + termCode r.term * 2 ^ 26 + r.zq.toNat * 2 ^ 25 + r.val ∧
    r.encode.statusField = statusCode r.status ∧ r.encode.termField = termCode r.term ∧
    r.encode.zqField = r.zq.toNat ∧ r.encode.zeroField = 0 ∧ r.encode.valField = r.val ∧ r.encode.data = r.data) ∧
  (∀ (s t : State) (c : Command) (rest : List Input) (p : Response), s.Inv → s.inputs = .command c :: rest → step s = .next t →
    t.responses = s.responses ++ [p] →
    p.zeroField = 0 ∧ (p.zqField = 1 ↔ zlps s.outQ + zlps s.inQ < zlps t.outQ + zlps t.inQ))

/-- The outcome can be read back off a response, for every outcome whose VAL fits its field. -/
def Obligations.ResponseDecodesBack : Prop :=
  ∀ r : Resp, r.wellFormed = true → r.encode.decode = some r

/-- The textual form (30_encoding.md section 7): what a command or a response prints as parses back to it. -/
def Obligations.TextFormParsesBack : Prop :=
  (∀ i : Instr, i.wellFormed = true → Text.parseCommand (Text.printInstr i) = some (encode i)) ∧
  (∀ (val : Nat) (data : List Byte) (term : Term) (zq : Bool), val ≤ 65535 →
    Text.parseResponse (Text.printResponse (.ok val data term zq)) = some (.ok val data term zq)) ∧
  Text.parseResponse (Text.printResponse .wouldBlock) = some .wouldBlock ∧
  Text.parseResponse (Text.printResponse .illegal) = some .illegal

/-! ### The step -/

/-- A step takes the oldest command and runs the instruction it decodes to, on the state with that command taken off the port. -/
def Obligations.StepRunsDecodedCommand : Prop :=
  ∀ (s : State) (c : Command) (rest : List Input) (i : Instr), s.cfg.legal → s.inputs = .command c :: rest →
    decode c = .ok i → step s = exec i { s with inputs := rest }

/-- 10_state.md R35 (decision D16): after reset the four queues are empty, the six counts are 0 and FLAGS is 0x55, the parameters
are as built; and the event RESET leaves a running block so. What the port holds across RESET is no part of this statement. -/
def Obligations.ResetEmptiesTheQueues : Prop :=
  (∀ k : Config, k.legal →
    (State.resetOf k).outQ = [] ∧ (State.resetOf k).inQ = [] ∧ (State.resetOf k).rxQ = [] ∧ (State.resetOf k).txQ = [] ∧
    (State.resetOf k).cfg = k ∧
    (∀ r ∈ [Reg.cntOut, .zcntOut, .cntIn, .zcntIn, .cntRx, .cntTx], regRead (State.resetOf k) r = 0) ∧
    flags (State.resetOf k) = 0x55#8) ∧
  (∀ (s : State) (rest : List Input), s.cfg.legal → s.inputs = .reset :: rest →
    ∃ t, step s = .next t ∧ t.outQ = [] ∧ t.inQ = [] ∧ t.rxQ = [] ∧ t.txQ = [] ∧ t.cfg = s.cfg ∧
      (∀ r ∈ [Reg.cntOut, .zcntOut, .cntIn, .zcntIn, .cntRx, .cntTx], regRead t r = 0) ∧ flags t = 0x55#8)

/-- The model's own choice about the port at RESET (log entry 5, DESIGN CHOICE, unsafe): the commands still waiting stay on the
port, the responses already given stay given, and RESET itself is answered by none. -/
def Obligations.ResetKeepsThePort : Prop :=
  ∀ (s : State) (rest : List Input), s.cfg.legal → s.inputs = .reset :: rest →
    step s = .next { s with outQ := [], inQ := [], rxQ := [], txQ := [], inputs := rest }

/-- What is no state is an input of the block's step and no field it updates (10_state.md section 7, and section 5 on hidden state):
`blockStep` takes the parameters, one input and the four queues, and answers queues and responses alone. On a command it is what
`exec` does to the queues and answers, whatever waits on the port and whatever was answered before; on an illegal command and on
RESET as their rules say; and a step of the machine is the block's step on its oldest input. The model's own choices in it: the
list that input is taken from and the list of responses (log entries 1 and 2, DESIGN CHOICE), and, in the last clause where the
input is RESET, that the waiting inputs and the earlier responses stay across it (log entry 5, DESIGN CHOICE, unsafe). -/
def Obligations.BlockStepTakesItsInputAsArgument : Prop :=
  (∀ (k : Config) (q : Queues) (c : Command) (i : Instr), decode c = .ok i →
    ∃ (q' : Queues) (p : Response), blockStep k (.command c) q = .next (q', [p]) ∧
      ∀ s : State, s.cfg = k → s.toQueues = q →
        exec i s = .next { s with toQueues := q', responses := s.responses ++ [p] }) ∧
  (∀ (k : Config) (q : Queues) (c : Command) (e : DecodeError), decode c = .error e →
    blockStep k (.command c) q = .next (q, [⟨0x20000000#32, []⟩])) ∧
  (∀ (k : Config) (q : Queues), blockStep k .reset q = .next (⟨[], [], [], []⟩, [])) ∧
  (∀ (s : State) (x : Input) (rest : List Input), s.cfg.legal → s.inputs = x :: rest →
    ∃ (q' : Queues) (ps : List Response), blockStep s.cfg x s.toQueues = .next (q', ps) ∧
      step s = .next { s with toQueues := q', inputs := rest, responses := s.responses ++ ps })

/-- The model's own choices about a step that takes no command: with nothing handed over the block is idle and holds its state
(log entry 4, after 10_state.md section 7), and a configuration outside its ranges is refused (log entry 6). -/
def Obligations.StepWithoutCommand : Prop :=
  (∀ s : State, s.cfg.legal → s.inputs = [] → step s = .next s) ∧
  (∀ s : State, ¬ s.cfg.legal → step s = .refused .illFormedConfig)

/-! ### The primitives of an endpoint FIFO -/

/-- 40_endpoint_fifo.md R103 (the zero-length write is decision D8): the queue after a write, the accepted length and `zq`, and both
bounds of the FIFO kept. -/
def Obligations.FifoWriteTakesWhatFits : Prop :=
  ∀ (f : FifoConfig) (q : List Entry) (d : List Byte),
    (fifoWrite f q d).q = afterWrite f q d ∧
    (fifoWrite f q d).accepted = (if d = [] then 0 else min d.length (f.c - resident q)) ∧
    ((fifoWrite f q d).zq = true ↔ d = [] ∧ zlps q < f.zd) ∧
    (fifoBounded f q → fifoBounded f (fifoWrite f q d).q ∧
      resident (fifoWrite f q d).q = resident q + (fifoWrite f q d).accepted)

/-- 40_endpoint_fifo.md R104 (decisions D8, D9, D15): one pull step on an empty FIFO, on a marker, and on a run `p`. -/
def Obligations.PullPacketTakesOnePacket : Prop :=
  ∀ (f : FifoConfig) (room : Nat), 1 ≤ f.m → 1 ≤ room →
    pullPacket f [] room = .exhausted ∧
    (∀ q, pullPacket f (.zlp :: q) room = .short [] false q) ∧
    (∀ (p : List Byte) (rest : List Entry), p ≠ [] → endsRun rest →
      1 ≤ min f.m (min p.length room) ∧
      (f.m ≤ p.length → f.m ≤ room →
        pullPacket f (p.map .byte ++ rest) room = .full (p.take f.m) ((p.drop f.m).map .byte ++ rest)) ∧
      (p.length ≤ room → p.length < f.m →
        pullPacket f (p.map .byte ++ rest) room = .short p false rest) ∧
      (room < p.length → room < f.m →
        pullPacket f (p.map .byte ++ rest) room = .short (p.take room) true ((p.drop room).map .byte ++ rest)))

/-- 40_endpoint_fifo.md R105 (decisions D10, D15): the aggregating read, as an equation without the loop's counter: it blocks on an
empty FIFO, takes nothing for `L = 0`, ends at a short packet or when `L` is used up, and goes on after a full packet with the
room left. -/
def Obligations.FifoReadAggregatesPackets : Prop :=
  ∀ (f : FifoConfig) (q : List Entry) (l : Nat), 1 ≤ f.m →
    (q = [] → fifoRead f q l = none) ∧
    (q ≠ [] → l = 0 → fifoRead f q l = some { data := [], term := .length, q := q }) ∧
    (q ≠ [] → 1 ≤ l →
      (∀ p cut q', pullPacket f q l = .short p cut q' →
        fifoRead f q l = some { data := p, term := if cut then .length else .short, q := q' }) ∧
      (∀ p q', pullPacket f q l = .full p q' →
        p.length ≤ l ∧
        (p.length = l → fifoRead f q l = some { data := p, term := .length, q := q' }) ∧
        (p.length < l → q' = [] → fifoRead f q l = some { data := p, term := .drained, q := [] }) ∧
        (p.length < l → q' ≠ [] →
          fifoRead f q l = (fifoRead f q' (l - p.length)).map fun r => { r with data := p ++ r.data })) ∧
      pullPacket f q l ≠ .exhausted ∧
      (∀ r, fifoRead f q l = some r → r.data.length ≤ l))

/-- The inference the spec marks as its own at 40_endpoint_fifo.md R106: what a read returns, in closed form. -/
def Obligations.FifoReadClosedForm : Prop :=
  ∀ (f : FifoConfig) (q : List Entry) (l : Nat), 1 ≤ f.m → q ≠ [] → 1 ≤ l →
    (run q = 0 → fifoRead f q l = some { data := [], term := .short, q := q.drop 1 }) ∧
    (1 ≤ run q →
      ∃ r, fifoRead f q l = some r ∧ r.data = bytesOf (q.take (min (run q) l)) ∧ r.data.length = min (run q) l ∧
        (min (run q) l = run q ∧ min (run q) l % f.m ≠ 0 → r.term = .short ∧ r.q = q.drop (min (run q) l)) ∧
        (min (run q) l = l ∧ (min (run q) l % f.m = 0 ∨ l < run q) → r.term = .length ∧ r.q = q.drop (min (run q) l)) ∧
        (run q < l ∧ run q % f.m = 0 →
          (q.drop (run q) = [] → r.term = .drained ∧ r.q = []) ∧
          (q.drop (run q) ≠ [] → r.term = .short ∧ r.q = q.drop (run q + 1))))

/-- The inference the spec marks as its own at 40_endpoint_fifo.md R107: the loop of a read ends within `min(r0, L) div M + 1`
rounds, so a larger bound on the rounds changes nothing. -/
def Obligations.ReadLoopIsBounded : Prop :=
  ∀ (f : FifoConfig) (q : List Entry) (room n : Nat) (acc : List Byte), 1 ≤ f.m → 1 ≤ room →
    min (run q) room / f.m + 1 ≤ n →
    readLoop f n q room acc = readLoop f (room / f.m + 1) q room acc

/-! ### The commands of the endpoint FIFOs -/

/-- 40_endpoint_fifo.md R110 (zero-length write by decision D8, encoding by D20): PUSH_OUT's encoding, its whole next state, and when
it is illegal. -/
def Obligations.PushOutWritesOutFifo : Prop :=
  (∀ d : List Byte, d.length ≤ 65535 → decode ⟨BitVec.ofNat 32 (0x10000000 + d.length), d⟩ = .ok (.pushOut d)) ∧
  (∀ (d : List Byte) (s : State),
    exec (.pushOut d) s = .next { s with outQ := afterWrite s.cfg.outF s.outQ d,
                                         responses := s.responses ++ [⟨writeWord s.cfg.outF s.outQ d, []⟩] }) ∧
  onlyIllegalWhen 0x1 fun c => rsvOf c.cw ≠ 0 ∨ c.payload.length ≠ argOf c.cw

/-- 40_endpoint_fifo.md R111 (decisions D10, D15, D20): PULL_IN's encoding, its whole next state by FifoRead on IN, WOULD_BLOCK
exactly when IN.q is empty, and when it is illegal. -/
def Obligations.PullInReadsInFifo : Prop :=
  (∀ n : Nat, n ≤ 65535 → decode ⟨BitVec.ofNat 32 (0x20000000 + n), []⟩ = .ok (.pullIn n)) ∧
  (∀ (n : Nat) (s : State), s.inQ = [] →
    exec (.pullIn n) s = .next { s with responses := s.responses ++ [⟨0x10000000#32, []⟩] }) ∧
  (∀ (n : Nat) (s : State), s.inQ ≠ [] → ∃ r, fifoRead s.cfg.inF s.inQ n = some r ∧
    exec (.pullIn n) s = .next { s with inQ := r.q,
                                        responses := s.responses ++ [⟨okWord (termCode r.term) 0 r.data.length, r.data⟩] }) ∧
  onlyIllegalWhen 0x2 fun c => rsvOf c.cw ≠ 0 ∨ c.payload ≠ []

/-- 40_endpoint_fifo.md R112 (decisions D10, D15, D20, D32): DEV_RD's encoding, its whole next state by FifoRead on OUT, WOULD_BLOCK
exactly when OUT.q is empty, and when it is illegal. -/
def Obligations.DevRdReadsOutFifo : Prop :=
  (∀ n : Nat, n ≤ 65535 → decode ⟨BitVec.ofNat 32 (0x30000000 + n), []⟩ = .ok (.devRd n)) ∧
  (∀ (n : Nat) (s : State), s.outQ = [] →
    exec (.devRd n) s = .next { s with responses := s.responses ++ [⟨0x10000000#32, []⟩] }) ∧
  (∀ (n : Nat) (s : State), s.outQ ≠ [] → ∃ r, fifoRead s.cfg.outF s.outQ n = some r ∧
    exec (.devRd n) s = .next { s with outQ := r.q,
                                       responses := s.responses ++ [⟨okWord (termCode r.term) 0 r.data.length, r.data⟩] }) ∧
  onlyIllegalWhen 0x3 fun c => rsvOf c.cw ≠ 0 ∨ c.payload ≠ []

/-- 40_endpoint_fifo.md R113 (decisions D8, D20, D32): DEV_WR's encoding, its whole next state, and when it is illegal. -/
def Obligations.DevWrWritesInFifo : Prop :=
  (∀ d : List Byte, d.length ≤ 65535 → decode ⟨BitVec.ofNat 32 (0x40000000 + d.length), d⟩ = .ok (.devWr d)) ∧
  (∀ (d : List Byte) (s : State),
    exec (.devWr d) s = .next { s with inQ := afterWrite s.cfg.inF s.inQ d,
                                       responses := s.responses ++ [⟨writeWord s.cfg.inF s.inQ d, []⟩] }) ∧
  onlyIllegalWhen 0x4 fun c => rsvOf c.cw ≠ 0 ∨ c.payload.length ≠ argOf c.cw

/-! ### The commands of the Stream Buffers -/

/-- 41_stream_buffer.md R145 with its steps R140 and R142 (decisions D14, D20, D29): APP_WR's encoding; the accepted bytes go to the
tail of TX.q, then one chunk of `k` bytes moves to the tail of IN.q; the response counts the accepted bytes; when it is illegal. -/
def Obligations.AppWrCopiesInThenFlushes : Prop :=
  (∀ d : List Byte, d.length ≤ 65535 → decode ⟨BitVec.ofNat 32 (0x50000000 + d.length), d⟩ = .ok (.appWr d)) ∧
  (∀ (d : List Byte) (s : State) (a k : Nat) (tx : List Byte),
    a = min d.length (s.cfg.bTx - s.txQ.length) → tx = s.txQ ++ d.take a →
    k = min s.cfg.inF.m (min tx.length (s.cfg.inF.c - resident s.inQ)) →
    exec (.appWr d) s = .next { s with inQ := s.inQ ++ (tx.take k).map .byte, txQ := tx.drop k,
                                       responses := s.responses ++ [⟨okWord 0 0 a, []⟩] }) ∧
  onlyIllegalWhen 0x5 fun c => rsvOf c.cw ≠ 0 ∨ c.payload.length ≠ argOf c.cw

/-- 41_stream_buffer.md R146 with its steps R141 and R143 (decisions D20, D28): APP_RD's encoding; one aggregating read of the free
room of RX.q, always; then WOULD_BLOCK exactly when RX.q is still empty, else the first `min(D, len)` bytes; when it is illegal. -/
def Obligations.AppRdPullsThenCopiesOut : Prop :=
  (∀ n : Nat, n ≤ 65535 → decode ⟨BitVec.ofNat 32 (0x60000000 + n), []⟩ = .ok (.appRd n)) ∧
  (∀ (n : Nat) (s : State) (out : List Entry) (rx : List Byte),
    (∀ r, fifoRead s.cfg.outF s.outQ (s.cfg.bRx - s.rxQ.length) = some r → out = r.q ∧ rx = s.rxQ ++ r.data) →
    (fifoRead s.cfg.outF s.outQ (s.cfg.bRx - s.rxQ.length) = none → out = s.outQ ∧ rx = s.rxQ) →
    (rx = [] → exec (.appRd n) s = .next { s with outQ := out, rxQ := rx,
                                                  responses := s.responses ++ [⟨0x10000000#32, []⟩] }) ∧
    (rx ≠ [] → exec (.appRd n) s = .next { s with outQ := out, rxQ := rx.drop n,
                                                  responses := s.responses ++ [⟨okWord 0 0 (min n rx.length), rx.take n⟩] })) ∧
  onlyIllegalWhen 0x6 fun c => rsvOf c.cw ≠ 0 ∨ c.payload ≠ []

/-- 41_stream_buffer.md R147 with its step R142 (decisions D13, D14, D20): POLL's encoding; one chunk of `k` bytes moves from the
head of TX.q to the tail of IN.q and nothing is pulled; the response counts the bytes moved; when it is illegal. -/
def Obligations.PollFlushesOneChunk : Prop :=
  decode ⟨0x70000000#32, []⟩ = .ok .poll ∧
  (∀ (s : State) (k : Nat), k = min s.cfg.inF.m (min s.txQ.length (s.cfg.inF.c - resident s.inQ)) →
    exec .poll s = .next { s with inQ := s.inQ ++ (s.txQ.take k).map .byte, txQ := s.txQ.drop k,
                                  responses := s.responses ++ [⟨okWord 0 0 k, []⟩] }) ∧
  onlyIllegalWhen 0x7 fun c => rsvOf c.cw ≠ 0 ∨ argOf c.cw ≠ 0 ∨ c.payload ≠ []

/-- 41_stream_buffer.md R141 (decision D28): the pull step is one aggregating read of the free room of RX.q, whose bytes go to the
tail of RX.q. So nothing moves without an entry or without room; a marker at the head is consumed and leaves no trace; from a run,
its first bytes up to the room move over, and behind them nothing but one marker may go with them. -/
def Obligations.RxPullMovesWhatFits : Prop :=
  (∀ s : State, fifoRead s.cfg.outF s.outQ (s.cfg.bRx - s.rxQ.length) = none → s.rxPull = s) ∧
  (∀ (s : State) (r : FifoData), fifoRead s.cfg.outF s.outQ (s.cfg.bRx - s.rxQ.length) = some r →
    s.rxPull = { s with outQ := r.q, rxQ := s.rxQ ++ r.data }) ∧
  (∀ s : State, s.Inv →
    (s.outQ = [] ∨ s.rxQ.length = s.cfg.bRx → s.rxPull = s) ∧
    (∀ q, s.outQ = .zlp :: q → s.rxQ.length < s.cfg.bRx → s.rxPull = { s with outQ := q }) ∧
    (1 ≤ run s.outQ → s.rxQ.length < s.cfg.bRx →
      s.rxPull.rxQ = s.rxQ ++ bytesOf (s.outQ.take (min (run s.outQ) (s.cfg.bRx - s.rxQ.length))) ∧
      ∃ q', s.rxPull = { s with rxQ := s.rxPull.rxQ, outQ := q' } ∧
        (q' = s.outQ.drop (min (run s.outQ) (s.cfg.bRx - s.rxQ.length)) ∨
          s.outQ.drop (min (run s.outQ) (s.cfg.bRx - s.rxQ.length)) = .zlp :: q')))

/-! ### The status registers -/

/-- 42_status_access.md R171 (decision D18), with the values of R170: RDREG's encoding by number, its whole next state, and when it
is illegal. -/
def Obligations.RdregReadsWithoutEffect : Prop :=
  (∀ x ∈ registerMap, decode ⟨BitVec.ofNat 32 (0x80000000 + x.1), []⟩ = .ok (.rdreg x.2)) ∧
  (∀ (s : State) (x : Reg × Nat),
    x ∈ [(Reg.mOut, s.cfg.outF.m), (.cOut, s.cfg.outF.c), (.zdOut, s.cfg.outF.zd), (.attrOut, s.cfg.outF.attr.toNat),
         (.mIn, s.cfg.inF.m), (.cIn, s.cfg.inF.c), (.zdIn, s.cfg.inF.zd), (.attrIn, s.cfg.inF.attr.toNat),
         (.bRx, s.cfg.bRx), (.bTx, s.cfg.bTx), (.cntOut, resident s.outQ), (.zcntOut, zlps s.outQ),
         (.cntIn, resident s.inQ), (.zcntIn, zlps s.inQ), (.cntRx, s.rxQ.length), (.cntTx, s.txQ.length),
         (.flags, (flags s).toNat)] →
    exec (.rdreg x.1) s = .next { s with responses := s.responses ++ [⟨okWord 0 0 x.2, []⟩] }) ∧
  onlyIllegalWhen 0x8 fun c => rsvOf c.cw ≠ 0 ∨ c.payload ≠ [] ∨ reservedNumber (argOf c.cw)

/-- 10_state.md R30 (decision D18): the eight bits of FLAGS, and 0x55 after reset. -/
def Obligations.FlagsShowEmptyAndFull : Prop :=
  (∀ s : State,
    ((flags s).getLsbD 0 = true ↔ s.outQ.length = 0) ∧ ((flags s).getLsbD 1 = true ↔ resident s.outQ = s.cfg.outF.c) ∧
    ((flags s).getLsbD 2 = true ↔ s.inQ.length = 0) ∧ ((flags s).getLsbD 3 = true ↔ resident s.inQ = s.cfg.inF.c) ∧
    ((flags s).getLsbD 4 = true ↔ s.rxQ.length = 0) ∧ ((flags s).getLsbD 5 = true ↔ s.rxQ.length = s.cfg.bRx) ∧
    ((flags s).getLsbD 6 = true ↔ s.txQ.length = 0) ∧ ((flags s).getLsbD 7 = true ↔ s.txQ.length = s.cfg.bTx)) ∧
  (∀ k : Config, k.legal → flags (State.resetOf k) = 0x55#8)

/-- The inference the spec marks as its own at 42_status_access.md R172: counts within their bounds, the flags as the counts say, no
queue both empty and full; every register value fits its 16 bits. -/
def Obligations.RegistersAgreeWithEachOther : Prop :=
  ∀ s : State, s.Inv →
    regRead s .cntOut ≤ regRead s .cOut ∧ regRead s .zcntOut ≤ regRead s .zdOut ∧
    regRead s .cntIn ≤ regRead s .cIn ∧ regRead s .zcntIn ≤ regRead s .zdIn ∧
    regRead s .cntRx ≤ regRead s .bRx ∧ regRead s .cntTx ≤ regRead s .bTx ∧
    ((regRead s .flags).testBit 0 = true ↔ regRead s .cntOut = 0 ∧ regRead s .zcntOut = 0) ∧
    ((regRead s .flags).testBit 1 = true ↔ regRead s .cntOut = regRead s .cOut) ∧
    ((regRead s .flags).testBit 2 = true ↔ regRead s .cntIn = 0 ∧ regRead s .zcntIn = 0) ∧
    ((regRead s .flags).testBit 3 = true ↔ regRead s .cntIn = regRead s .cIn) ∧
    ((regRead s .flags).testBit 4 = true ↔ regRead s .cntRx = 0) ∧
    ((regRead s .flags).testBit 5 = true ↔ regRead s .cntRx = regRead s .bRx) ∧
    ((regRead s .flags).testBit 6 = true ↔ regRead s .cntTx = 0) ∧
    ((regRead s .flags).testBit 7 = true ↔ regRead s .cntTx = regRead s .bTx) ∧
    (∀ k < 4, ¬ ((regRead s .flags).testBit (2 * k) = true ∧ (regRead s .flags).testBit (2 * k + 1) = true)) ∧
    (∀ r : Reg, regRead s r ≤ 65535)

/-! ### Frames and whole-machine rules -/

/-- 10_state.md R34: which command writes which end of which queue, everything else unchanged, with the queues that a Stream Buffer
command both fills and empties given by the steps of 41_stream_buffer.md that it takes; a command that ends ILLEGAL_CMD touches no
queue. -/
def Obligations.CommandsTouchOnlyTheirEnds : Prop :=
  (∀ (i : Instr) (s t : State), exec i s = .next t →
    t.cfg = s.cfg ∧ t.inputs = s.inputs ∧ (∃ p, t.responses = s.responses ++ [p]) ∧
    match i with
    | .pushOut _ => (∃ x, t.outQ = s.outQ ++ x) ∧ t.inQ = s.inQ ∧ t.rxQ = s.rxQ ∧ t.txQ = s.txQ
    | .pullIn _  => t.outQ = s.outQ ∧ (∃ k, t.inQ = s.inQ.drop k) ∧ t.rxQ = s.rxQ ∧ t.txQ = s.txQ
    | .devRd _   => (∃ k, t.outQ = s.outQ.drop k) ∧ t.inQ = s.inQ ∧ t.rxQ = s.rxQ ∧ t.txQ = s.txQ
    | .devWr _   => t.outQ = s.outQ ∧ (∃ x, t.inQ = s.inQ ++ x) ∧ t.rxQ = s.rxQ ∧ t.txQ = s.txQ
    | .appWr d   => t.outQ = s.outQ ∧ t.rxQ = s.rxQ ∧ (s.txCopyIn d).txQ = s.txQ ++ d.take (s.txAccepts d) ∧
        t.inQ = s.inQ ++ ((s.txCopyIn d).txQ.take (s.txCopyIn d).txChunk).map .byte ∧
        t.txQ = (s.txCopyIn d).txQ.drop (s.txCopyIn d).txChunk
    | .appRd n   => t.inQ = s.inQ ∧ t.txQ = s.txQ ∧ t.outQ = s.rxPull.outQ ∧ (∃ k, t.outQ = s.outQ.drop k) ∧
        (∃ x, s.rxPull.rxQ = s.rxQ ++ x ∧ x.length ≤ s.rxFree) ∧
        (s.rxPull.rxQ = [] → t.rxQ = []) ∧
        (s.rxPull.rxQ ≠ [] → t.rxQ = (s.rxPull.rxCopyOut n).rxQ ∧ t.rxQ = s.rxPull.rxQ.drop (min n s.rxPull.rxQ.length))
    | .poll      => t.outQ = s.outQ ∧ t.rxQ = s.rxQ ∧ t.inQ = s.inQ ++ (s.txQ.take s.txChunk).map .byte ∧
        t.txQ = s.txQ.drop s.txChunk
    | .rdreg _   => t.outQ = s.outQ ∧ t.inQ = s.inQ ∧ t.rxQ = s.rxQ ∧ t.txQ = s.txQ) ∧
  (∀ (s t : State) (c : Command) (rest : List Input) (e : DecodeError), s.inputs = .command c :: rest →
    decode c = .error e → step s = .next t → sameQueues s t)

/-- The invariant holds after reset, for every legal configuration and for the model's State.reset (built with CFG_REF, log
entry 3), and so does the form of the responses. -/
def Obligations.ResetMeetsInvariants : Prop :=
  (∀ k : Config, k.legal → (State.resetOf k).Inv ∧ (State.resetOf k).responsesLegal) ∧
  State.reset.Inv ∧ State.reset.responsesLegal

/-- The bounds of 10_state.md R22 (a), (b) and R25, and the parameters' ranges, are kept by every step from every state that meets
them. -/
def Obligations.EveryStepKeepsInvariant : Prop :=
  ∀ s t : State, s.Inv → step s = .next t → t.Inv

/-- Every response ever given has the form of 30_encoding.md R78, R79 and R81: an invariant of every step. -/
def Obligations.EveryStepKeepsResponsesLegal : Prop :=
  ∀ s t : State, s.Inv → s.responsesLegal → step s = .next t → t.responsesLegal

/-- 60_exceptions.md R180: every command ends with exactly one response, whose STATUS is 0, 1 or 2. -/
def Obligations.EveryCommandIsAnsweredOnce : Prop :=
  ∀ (s : State) (c : Command) (rest : List Input), s.Inv → s.inputs = .command c :: rest →
    ∃ (t : State) (p : Response), step s = .next t ∧ t.inputs = rest ∧ t.responses = s.responses ++ [p] ∧
      (p.statusField = 0 ∨ p.statusField = 1 ∨ p.statusField = 2)

/-- 60_exceptions.md R181: WOULD_BLOCK is given by three commands only, each on its one condition, as `0x10000000` with no data; it
changes no queue but for a marker at the head of OUT.q that the pull step of APP_RD consumes. -/
def Obligations.WouldBlockExactlyForLackOfData : Prop :=
  ∀ (i : Instr) (s t : State) (p : Response), s.Inv → exec i s = .next t → t.responses = s.responses ++ [p] →
    (p.statusField = 1 ↔
      (∃ n, i = .pullIn n) ∧ s.inQ.length = 0 ∨ (∃ n, i = .devRd n) ∧ s.outQ.length = 0 ∨
      (∃ n, i = .appRd n) ∧ s.rxPull.rxQ.length = 0) ∧
    (p.statusField = 1 → p = ⟨0x10000000#32, []⟩ ∧
      (sameQueues s t ∨
        (∃ n, i = .appRd n) ∧ s.rxQ = [] ∧ s.outQ = .zlp :: t.outQ ∧
          t = { s with outQ := t.outQ, responses := t.responses }))

/-- The bounds the spec infers at 41_stream_buffer.md R155 and states at 30_encoding.md R81: VAL never exceeds ARG for formats W and
R, nor the capacity of the queue the bytes go through. -/
def Obligations.ValNeverExceedsItsBounds : Prop :=
  ∀ (i : Instr) (s t : State) (p : Response), s.Inv → exec i s = .next t → t.responses = s.responses ++ [p] →
    (i.format = .w ∨ i.format = .r → p.valField ≤ i.arg) ∧
    (i.format = .r → p.data.length = p.valField) ∧ (i.format ≠ .r → p.data = []) ∧
    (∀ d, i = .pushOut d → p.valField ≤ s.cfg.outF.c) ∧ (∀ d, i = .devWr d → p.valField ≤ s.cfg.inF.c) ∧
    (∀ d, i = .appWr d → p.valField ≤ s.cfg.bTx) ∧ (∀ n, i = .appRd n → p.valField ≤ s.cfg.bRx) ∧
    (i = .poll → p.valField ≤ s.cfg.inF.m)

/-- The response and the next four queues are a function of the parameters, the four queues and the command: what waits on the port
and what was answered before have no influence (10_state.md section 5, 20_memory.md section 3). -/
def Obligations.QueuesAndCommandDetermineOutcome : Prop :=
  ∀ (i : Instr) (s u : State), sameQueues s u →
    ∃ (s' u' : State) (p : Response), exec i s = .next s' ∧ exec i u = .next u' ∧ sameQueues s' u' ∧
      s'.responses = s.responses ++ [p] ∧ u'.responses = u.responses ++ [p]

/-- The two paths share nothing (10_state.md sections 2 and 6): a command of the receive path reads and writes OUT.q and RX.q alone,
one of the transmit path IN.q and TX.q alone. -/
def Obligations.PathsDoNotInterfere : Prop :=
  ∀ (i : Instr) (s u s' u' : State) (p p' : Response), s.cfg = u.cfg → exec i s = .next s' → exec i u = .next u' →
    s'.responses = s.responses ++ [p] → u'.responses = u.responses ++ [p'] →
    ((∃ d, i = .pushOut d) ∨ (∃ n, i = .devRd n) ∨ (∃ n, i = .appRd n) → s.outQ = u.outQ → s.rxQ = u.rxQ →
      p = p' ∧ s'.outQ = u'.outQ ∧ s'.rxQ = u'.rxQ ∧ s'.inQ = s.inQ ∧ s'.txQ = s.txQ) ∧
    ((∃ d, i = .devWr d) ∨ (∃ n, i = .pullIn n) ∨ (∃ d, i = .appWr d) ∨ i = .poll → s.inQ = u.inQ → s.txQ = u.txQ →
      p = p' ∧ s'.inQ = u'.inQ ∧ s'.txQ = u'.txQ ∧ s'.outQ = s.outQ ∧ s'.rxQ = s.rxQ)

/-! ### Runs -/

/-- The inference the spec marks as its own at 60_exceptions.md R191: no run ever stops, and after as many steps as there are inputs
every command has had its one response. Two clauses rest on the model's own choices: where a RESET is among the inputs, that the
commands waiting behind it are still answered and the earlier responses stay is log entry 5 (DESIGN CHOICE, unsafe); a run longer
than the inputs goes on with idle steps, log entry 4. -/
def Obligations.RunAnswersEveryCommand : Prop :=
  ∀ s : State, s.cfg.legal →
    (∀ n, runsSafely n s) ∧
    ∃ t : State, Host.Core.run core s.inputs.length s = .next t ∧ t.inputs = [] ∧
      ∃ ps, t.responses = s.responses ++ ps ∧ ps.length = commandCount s.inputs

/-- The stream law the spec infers at 20_memory.md R63, receive path: the bytes returned by APP_RD and DEV_RD, then RX.q, then the
bytes of OUT.q, are the bytes that were there and the accepted bytes of all PUSH_OUT, in order, if no DEV_RD overtook RX.q. -/
def Obligations.ReceiveStreamLaw : Prop :=
  ∀ (s : State) (cmds : List Command) (later : List Input), s.Inv → s.inputs = cmds.map .command ++ later → s.receiveInOrder cmds.length →
    ∃ (t : State) (ps : List Response), Host.Core.run core cmds.length s = .next t ∧ t.inputs = later ∧
      t.responses = s.responses ++ ps ∧ ps.length = cmds.length ∧
      (cmds.zip ps).flatMap returnedOut ++ t.rxQ ++ bytesOf t.outQ =
        s.rxQ ++ bytesOf s.outQ ++ (cmds.zip ps).flatMap acceptedOut

/-- The stream law the spec infers at 20_memory.md R63, transmit path: the bytes returned by PULL_IN, then the bytes of IN.q, then
TX.q, are the bytes that were there and the accepted bytes of all APP_WR and DEV_WR, in order, if no DEV_WR overtook TX.q. -/
def Obligations.TransmitStreamLaw : Prop :=
  ∀ (s : State) (cmds : List Command) (later : List Input), s.Inv → s.inputs = cmds.map .command ++ later → s.transmitInOrder cmds.length →
    ∃ (t : State) (ps : List Response), Host.Core.run core cmds.length s = .next t ∧ t.inputs = later ∧
      t.responses = s.responses ++ ps ∧ ps.length = cmds.length ∧
      (cmds.zip ps).flatMap returnedIn ++ bytesOf t.inQ ++ t.txQ =
        bytesOf s.inQ ++ s.txQ ++ (cmds.zip ps).flatMap acceptedIn

/-- The inference the spec marks as its own at 41_stream_buffer.md R152: POLL repeated often enough for the packet size brings all of
TX.q into an IN FIFO with room for it, in order, and nothing else changes. -/
def Obligations.PollsDrainTheTransmitBuffer : Prop :=
  ∀ (s : State) (n : Nat) (later : List Input), s.cfg.legal → s.inputs = List.replicate n pollInput ++ later →
    s.txQ.length ≤ n * s.cfg.inF.m → resident s.inQ + s.txQ.length ≤ s.cfg.inF.c →
    ∃ t : State, Host.Core.run core n s = .next t ∧ t.txQ = [] ∧ t.inQ = s.inQ ++ s.txQ.map .byte ∧
      t.outQ = s.outQ ∧ t.rxQ = s.rxQ ∧ t.cfg = s.cfg ∧ t.inputs = later
end

