-- ==== Sys2Proof/Laws/Decode.lean ====
section
/-! SUPPORT. The small lemmas of the encodings of spec/30_encoding.md: the fields of a word as arithmetic, bytes and numbers, the
register map both ways. -/

namespace Sys2Proof

theorem opField_eq (w : Word) : opField w = w.toNat / 2 ^ 28 := by
  have h := w.isLt
  simp only [opField, BitVec.extractLsb'_toNat, Nat.shiftRight_eq_div_pow]
  omega

theorem rsvField_eq (w : Word) : rsvField w = w.toNat / 2 ^ 16 % 2 ^ 12 := by
  simp only [rsvField, BitVec.extractLsb'_toNat, Nat.shiftRight_eq_div_pow]

theorem argField_eq (w : Word) : argField w = w.toNat % 2 ^ 16 := by
  simp [argField, BitVec.extractLsb'_toNat]

/-- A word is put together from its fields (30_encoding.md R71). -/
theorem word_of_fields (w : Word) : w.toNat = opField w * 2 ^ 28 + rsvField w * 2 ^ 16 + argField w := by
  rw [opField_eq, rsvField_eq, argField_eq]
  omega

theorem argField_lt (w : Word) : argField w < 2 ^ 16 := by rw [argField_eq]; omega

theorem commandWord_toNat {op arg : Nat} (ho : op < 16) (ha : arg ≤ maxLength) :
    (commandWord op arg).toNat = op * 2 ^ 28 + arg := by
  simp only [maxLength] at ha
  simp only [commandWord, BitVec.toNat_ofNat]
  omega

theorem opField_commandWord {op arg : Nat} (ho : op < 16) (ha : arg ≤ maxLength) : opField (commandWord op arg) = op := by
  rw [opField_eq, commandWord_toNat ho ha]
  simp only [maxLength] at ha
  omega

theorem rsvField_commandWord {op arg : Nat} (ho : op < 16) (ha : arg ≤ maxLength) : rsvField (commandWord op arg) = 0 := by
  rw [rsvField_eq, commandWord_toNat ho ha]
  simp only [maxLength] at ha
  omega

theorem argField_commandWord {op arg : Nat} (ho : op < 16) (ha : arg ≤ maxLength) : argField (commandWord op arg) = arg := by
  rw [argField_eq, commandWord_toNat ho ha]
  simp only [maxLength] at ha
  omega

@[simp] theorem regOfNumber_number (r : Reg) : regOfNumber r.number = some r := by cases r <;> rfl

theorem regOfNumber_eq_some {n : Nat} {r : Reg} (h : regOfNumber n = some r) : n = r.number := by
  unfold regOfNumber at h
  split at h <;> first | (obtain rfl := Option.some.inj h; rfl) | cases h

theorem number_le (r : Reg) : r.number ≤ 0x16 := by cases r <;> decide

@[simp] theorem leBytes_length (n v : Nat) : (leBytes n v).length = n := by
  induction n generalizing v with
  | zero => rfl
  | succ n ih => simp [leBytes, ih]

/-- The bytes of a number put together again are its low bytes. -/
theorem ofLeBytes_leBytes (n v : Nat) : ofLeBytes (leBytes n v) = v % 256 ^ n := by
  induction n generalizing v with
  | zero => simp [leBytes, ofLeBytes, Nat.mod_one]
  | succ n ih =>
    rw [leBytes, ofLeBytes, ih, BitVec.toNat_ofNat, Nat.pow_succ (n := 256) (m := n), Nat.mul_comm (256 ^ n) 256, Nat.mod_mul]

/-- The four bytes of a word are that word (30_encoding.md R86). -/
@[simp] theorem wordOfBytes_wordBytes (w : Word) : wordOfBytes (wordBytes w) = w := by
  apply BitVec.eq_of_toNat_eq
  have h := w.isLt
  simp only [wordOfBytes, wordBytes, ofLeBytes_leBytes, BitVec.toNat_ofNat]
  omega

theorem wordBytes_eq (w : Word) :
    wordBytes w = [BitVec.ofNat 8 w.toNat, BitVec.ofNat 8 (w.toNat / 256), BitVec.ofNat 8 (w.toNat / 256 / 256),
      BitVec.ofNat 8 (w.toNat / 256 / 256 / 256)] := rfl

/-! The fields of a response word as arithmetic (30_encoding.md R78). -/

theorem statusField_eq (p : Response) : p.statusField = p.rw.toNat / 2 ^ 28 % 2 ^ 4 := by
  simp only [Response.statusField, BitVec.extractLsb'_toNat, Nat.shiftRight_eq_div_pow]

theorem termField_eq (p : Response) : p.termField = p.rw.toNat / 2 ^ 26 % 2 ^ 2 := by
  simp only [Response.termField, BitVec.extractLsb'_toNat, Nat.shiftRight_eq_div_pow]

theorem zqField_eq (p : Response) : p.zqField = p.rw.toNat / 2 ^ 25 % 2 ^ 1 := by
  simp only [Response.zqField, BitVec.extractLsb'_toNat, Nat.shiftRight_eq_div_pow]

theorem zeroField_eq (p : Response) : p.zeroField = p.rw.toNat / 2 ^ 16 % 2 ^ 9 := by
  simp only [Response.zeroField, BitVec.extractLsb'_toNat, Nat.shiftRight_eq_div_pow]

theorem valField_eq (p : Response) : p.valField = p.rw.toNat % 2 ^ 16 := by
  simp only [Response.valField, BitVec.extractLsb'_toNat, Nat.shiftRight_zero]

@[simp] theorem encode_data (r : Resp) : r.encode.data = r.data := rfl

end Sys2Proof
end

