-- ==== Sys2Proof/Laws/State.lean ====
section
/-! SUPPORT. One lemma per field per update of the state, each true by definition, so that no proof unfolds a record update. -/

namespace Sys2Proof.Machine

@[simp] theorem Queues.empty_outQ : Queues.empty.outQ = [] := rfl
@[simp] theorem Queues.empty_inQ : Queues.empty.inQ = [] := rfl
@[simp] theorem Queues.empty_rxQ : Queues.empty.rxQ = [] := rfl
@[simp] theorem Queues.empty_txQ : Queues.empty.txQ = [] := rfl

@[simp] theorem State.setOutQ_cfg (s : State) (q : List Entry) : (s.setOutQ q).cfg = s.cfg := rfl
@[simp] theorem State.setOutQ_outQ (s : State) (q : List Entry) : (s.setOutQ q).outQ = q := rfl
@[simp] theorem State.setOutQ_inQ (s : State) (q : List Entry) : (s.setOutQ q).inQ = s.inQ := rfl
@[simp] theorem State.setOutQ_rxQ (s : State) (q : List Entry) : (s.setOutQ q).rxQ = s.rxQ := rfl
@[simp] theorem State.setOutQ_txQ (s : State) (q : List Entry) : (s.setOutQ q).txQ = s.txQ := rfl
@[simp] theorem State.setOutQ_inputs (s : State) (q : List Entry) : (s.setOutQ q).inputs = s.inputs := rfl
@[simp] theorem State.setOutQ_responses (s : State) (q : List Entry) : (s.setOutQ q).responses = s.responses := rfl

@[simp] theorem State.setInQ_cfg (s : State) (q : List Entry) : (s.setInQ q).cfg = s.cfg := rfl
@[simp] theorem State.setInQ_outQ (s : State) (q : List Entry) : (s.setInQ q).outQ = s.outQ := rfl
@[simp] theorem State.setInQ_inQ (s : State) (q : List Entry) : (s.setInQ q).inQ = q := rfl
@[simp] theorem State.setInQ_rxQ (s : State) (q : List Entry) : (s.setInQ q).rxQ = s.rxQ := rfl
@[simp] theorem State.setInQ_txQ (s : State) (q : List Entry) : (s.setInQ q).txQ = s.txQ := rfl
@[simp] theorem State.setInQ_inputs (s : State) (q : List Entry) : (s.setInQ q).inputs = s.inputs := rfl
@[simp] theorem State.setInQ_responses (s : State) (q : List Entry) : (s.setInQ q).responses = s.responses := rfl

@[simp] theorem State.setRxQ_cfg (s : State) (q : List Byte) : (s.setRxQ q).cfg = s.cfg := rfl
@[simp] theorem State.setRxQ_outQ (s : State) (q : List Byte) : (s.setRxQ q).outQ = s.outQ := rfl
@[simp] theorem State.setRxQ_inQ (s : State) (q : List Byte) : (s.setRxQ q).inQ = s.inQ := rfl
@[simp] theorem State.setRxQ_rxQ (s : State) (q : List Byte) : (s.setRxQ q).rxQ = q := rfl
@[simp] theorem State.setRxQ_txQ (s : State) (q : List Byte) : (s.setRxQ q).txQ = s.txQ := rfl
@[simp] theorem State.setRxQ_inputs (s : State) (q : List Byte) : (s.setRxQ q).inputs = s.inputs := rfl
@[simp] theorem State.setRxQ_responses (s : State) (q : List Byte) : (s.setRxQ q).responses = s.responses := rfl

@[simp] theorem State.setTxQ_cfg (s : State) (q : List Byte) : (s.setTxQ q).cfg = s.cfg := rfl
@[simp] theorem State.setTxQ_outQ (s : State) (q : List Byte) : (s.setTxQ q).outQ = s.outQ := rfl
@[simp] theorem State.setTxQ_inQ (s : State) (q : List Byte) : (s.setTxQ q).inQ = s.inQ := rfl
@[simp] theorem State.setTxQ_rxQ (s : State) (q : List Byte) : (s.setTxQ q).rxQ = s.rxQ := rfl
@[simp] theorem State.setTxQ_txQ (s : State) (q : List Byte) : (s.setTxQ q).txQ = q := rfl
@[simp] theorem State.setTxQ_inputs (s : State) (q : List Byte) : (s.setTxQ q).inputs = s.inputs := rfl
@[simp] theorem State.setTxQ_responses (s : State) (q : List Byte) : (s.setTxQ q).responses = s.responses := rfl

@[simp] theorem State.setQueues_toQueues (s : State) (q : Queues) : (s.setQueues q).toQueues = q := rfl
@[simp] theorem State.setQueues_cfg (s : State) (q : Queues) : (s.setQueues q).cfg = s.cfg := rfl
@[simp] theorem State.setQueues_inputs (s : State) (q : Queues) : (s.setQueues q).inputs = s.inputs := rfl
@[simp] theorem State.setQueues_responses (s : State) (q : Queues) : (s.setQueues q).responses = s.responses := rfl

@[simp] theorem State.setInputs_cfg (s : State) (is : List Input) : (s.setInputs is).cfg = s.cfg := rfl
@[simp] theorem State.setInputs_outQ (s : State) (is : List Input) : (s.setInputs is).outQ = s.outQ := rfl
@[simp] theorem State.setInputs_inQ (s : State) (is : List Input) : (s.setInputs is).inQ = s.inQ := rfl
@[simp] theorem State.setInputs_rxQ (s : State) (is : List Input) : (s.setInputs is).rxQ = s.rxQ := rfl
@[simp] theorem State.setInputs_txQ (s : State) (is : List Input) : (s.setInputs is).txQ = s.txQ := rfl
@[simp] theorem State.setInputs_inputs (s : State) (is : List Input) : (s.setInputs is).inputs = is := rfl
@[simp] theorem State.setInputs_responses (s : State) (is : List Input) : (s.setInputs is).responses = s.responses := rfl

@[simp] theorem State.respond_cfg (s : State) (r : Resp) : (s.respond r).cfg = s.cfg := rfl
@[simp] theorem State.respond_outQ (s : State) (r : Resp) : (s.respond r).outQ = s.outQ := rfl
@[simp] theorem State.respond_inQ (s : State) (r : Resp) : (s.respond r).inQ = s.inQ := rfl
@[simp] theorem State.respond_rxQ (s : State) (r : Resp) : (s.respond r).rxQ = s.rxQ := rfl
@[simp] theorem State.respond_txQ (s : State) (r : Resp) : (s.respond r).txQ = s.txQ := rfl
@[simp] theorem State.respond_inputs (s : State) (r : Resp) : (s.respond r).inputs = s.inputs := rfl
@[simp] theorem State.respond_responses (s : State) (r : Resp) : (s.respond r).responses = s.responses ++ [r.encode] := rfl

@[simp] theorem State.doReset_cfg (s : State) : s.doReset.cfg = s.cfg := rfl
@[simp] theorem State.doReset_outQ (s : State) : s.doReset.outQ = [] := rfl
@[simp] theorem State.doReset_inQ (s : State) : s.doReset.inQ = [] := rfl
@[simp] theorem State.doReset_rxQ (s : State) : s.doReset.rxQ = [] := rfl
@[simp] theorem State.doReset_txQ (s : State) : s.doReset.txQ = [] := rfl
@[simp] theorem State.doReset_inputs (s : State) : s.doReset.inputs = s.inputs := rfl
@[simp] theorem State.doReset_responses (s : State) : s.doReset.responses = s.responses := rfl

@[simp] theorem State.setInputs_toQueues (s : State) (is : List Input) : (s.setInputs is).toQueues = s.toQueues := rfl
@[simp] theorem State.respond_toQueues (s : State) (r : Resp) : (s.respond r).toQueues = s.toQueues := rfl
@[simp] theorem State.doReset_toQueues (s : State) : s.doReset.toQueues = Queues.empty := rfl

@[simp] theorem State.resetOf_cfg (k : Config) : (State.resetOf k).cfg = k := rfl
@[simp] theorem State.resetOf_outQ (k : Config) : (State.resetOf k).outQ = [] := rfl
@[simp] theorem State.resetOf_inQ (k : Config) : (State.resetOf k).inQ = [] := rfl
@[simp] theorem State.resetOf_rxQ (k : Config) : (State.resetOf k).rxQ = [] := rfl
@[simp] theorem State.resetOf_txQ (k : Config) : (State.resetOf k).txQ = [] := rfl
@[simp] theorem State.resetOf_inputs (k : Config) : (State.resetOf k).inputs = [] := rfl
@[simp] theorem State.resetOf_responses (k : Config) : (State.resetOf k).responses = [] := rfl

end Sys2Proof.Machine
end

