-- ==== Sys2Proof/Laws/Queues.lean ====
section
/-! SUPPORT. The small lemmas of the queue functions of spec/00_scope.md R9. -/

namespace Sys2Proof.Machine

@[simp] theorem resident_nil : resident [] = 0 := rfl
@[simp] theorem resident_byte (b : Byte) (q : List Entry) : resident (.byte b :: q) = resident q + 1 := rfl
@[simp] theorem resident_zlp (q : List Entry) : resident (.zlp :: q) = resident q := rfl
@[simp] theorem zlps_nil : zlps [] = 0 := rfl
@[simp] theorem zlps_byte (b : Byte) (q : List Entry) : zlps (.byte b :: q) = zlps q := rfl
@[simp] theorem zlps_zlp (q : List Entry) : zlps (.zlp :: q) = zlps q + 1 := rfl
@[simp] theorem run_nil : run [] = 0 := rfl
@[simp] theorem run_byte (b : Byte) (q : List Entry) : run (.byte b :: q) = run q + 1 := rfl
@[simp] theorem run_zlp (q : List Entry) : run (.zlp :: q) = 0 := rfl
@[simp] theorem bytesOf_nil : bytesOf [] = [] := rfl
@[simp] theorem bytesOf_byte (b : Byte) (q : List Entry) : bytesOf (.byte b :: q) = b :: bytesOf q := rfl
@[simp] theorem bytesOf_zlp (q : List Entry) : bytesOf (.zlp :: q) = bytesOf q := rfl
@[simp] theorem entriesOf_nil : entriesOf [] = [] := rfl
@[simp] theorem entriesOf_cons (b : Byte) (d : List Byte) : entriesOf (b :: d) = .byte b :: entriesOf d := rfl

@[simp] theorem resident_append (p q : List Entry) : resident (p ++ q) = resident p + resident q := by
  induction p with
  | nil => simp
  | cons e p ih => cases e <;> simp [ih]; omega

@[simp] theorem zlps_append (p q : List Entry) : zlps (p ++ q) = zlps p + zlps q := by
  induction p with
  | nil => simp
  | cons e p ih => cases e <;> simp [ih]; omega

@[simp] theorem bytesOf_append (p q : List Entry) : bytesOf (p ++ q) = bytesOf p ++ bytesOf q := by
  induction p with
  | nil => simp
  | cons e p ih => cases e <;> simp [ih]

@[simp] theorem entriesOf_append (d e : List Byte) : entriesOf (d ++ e) = entriesOf d ++ entriesOf e := by simp [entriesOf]
@[simp] theorem entriesOf_length (d : List Byte) : (entriesOf d).length = d.length := by simp [entriesOf]
theorem entriesOf_take (d : List Byte) (n : Nat) : (entriesOf d).take n = entriesOf (d.take n) := by simp [entriesOf]
theorem entriesOf_drop (d : List Byte) (n : Nat) : (entriesOf d).drop n = entriesOf (d.drop n) := by simp [entriesOf]

@[simp] theorem resident_entriesOf (d : List Byte) : resident (entriesOf d) = d.length := by
  induction d with
  | nil => simp
  | cons b d ih => simp [ih]

@[simp] theorem zlps_entriesOf (d : List Byte) : zlps (entriesOf d) = 0 := by
  induction d with
  | nil => simp
  | cons b d ih => simp [ih]

@[simp] theorem bytesOf_entriesOf (d : List Byte) : bytesOf (entriesOf d) = d := by
  induction d with
  | nil => simp
  | cons b d ih => simp [ih]

theorem bytesOf_length (q : List Entry) : (bytesOf q).length = resident q := by
  induction q with
  | nil => simp
  | cons e q ih => cases e <;> simp [ih]

/-- Every entry is a byte or a marker (10_state.md R22). -/
theorem length_eq_resident_add_zlps (q : List Entry) : q.length = resident q + zlps q := by
  induction q with
  | nil => simp
  | cons e q ih => cases e <;> simp [ih] <;> omega

theorem run_le_resident (q : List Entry) : run q ≤ resident q := by
  induction q with
  | nil => simp
  | cons e q ih => cases e <;> simp [ih]

/-- Byte entries before a queue lengthen its run. -/
@[simp] theorem run_entriesOf_append (d : List Byte) (q : List Entry) : run (entriesOf d ++ q) = d.length + run q := by
  induction d with
  | nil => simp
  | cons b d ih => simp [ih]; omega

/-- A queue is its run, as bytes, and then nothing or a marker (00_scope.md R9). -/
theorem queue_split (q : List Entry) :
    ∃ (p : List Byte) (rest : List Entry), q = entriesOf p ++ rest ∧ p.length = run q ∧ (rest = [] ∨ ∃ q', rest = .zlp :: q') := by
  induction q with
  | nil => exact ⟨[], [], rfl, rfl, .inl rfl⟩
  | cons e q ih =>
    cases e with
    | zlp => exact ⟨[], .zlp :: q, rfl, rfl, .inr ⟨q, rfl⟩⟩
    | byte b =>
      obtain ⟨p, rest, h, hl, hr⟩ := ih
      exact ⟨b :: p, rest, by simp [h], by simp [hl], hr⟩

/-- A suffix of a queue holds no more bytes and markers than the queue. -/
theorem bounded_of_suffix {f : FifoConfig} (p q : List Entry) (h : resident (p ++ q) ≤ f.c ∧ zlps (p ++ q) ≤ f.zd) :
    resident q ≤ f.c ∧ zlps q ≤ f.zd := by
  simp only [resident_append, zlps_append] at h
  omega

end Sys2Proof.Machine
end

