-- ==== Sys2Proof/Laws/Fifo.lean ====
section
/-! SUPPORT. What the FIFO primitives of spec/40_endpoint_fifo.md (R103 to R105) can do, said once. -/

namespace Sys2Proof.Machine

/-- A FIFO write queues one marker, or nothing, or the leading bytes that fit. -/
theorem fifoWrite_cases (f : FifoConfig) (q : List Entry) (d : List Byte) :
    (d = [] ∧ zlps q < f.zd ∧ fifoWrite f q d = { q := q ++ [.zlp], accepted := 0, zq := true }) ∨
    (d = [] ∧ ¬ zlps q < f.zd ∧ fifoWrite f q d = { q := q, accepted := 0, zq := false }) ∨
    (d ≠ [] ∧ fifoWrite f q d =
      { q := q ++ entriesOf (d.take (min d.length (fifoFree f q))), accepted := min d.length (fifoFree f q), zq := false }) := by
  rcases d with _ | ⟨b, d⟩
  · by_cases h : zlps q < f.zd
    · exact .inl ⟨rfl, h, by simp [fifoWrite, h]⟩
    · exact .inr (.inl ⟨rfl, h, by simp [fifoWrite, h]⟩)
  · exact .inr (.inr ⟨by simp, by simp [fifoWrite]⟩)

/-- A write that fits whole and is not empty takes all of it. -/
theorem fifoWrite_of_fits {f : FifoConfig} {q : List Entry} {d : List Byte} (hne : d ≠ []) (h : d.length ≤ fifoFree f q) :
    fifoWrite f q d = { q := q ++ entriesOf d, accepted := d.length, zq := false } := by
  rcases fifoWrite_cases f q d with ⟨h', _⟩ | ⟨h', _⟩ | ⟨_, h'⟩
  · exact absurd h' hne
  · exact absurd h' hne
  · rw [h', Nat.min_eq_left h, List.take_length]

/-- A pull step on a run `p`, whatever follows it: its first `min(M, run, room)` bytes. -/
theorem pullPacket_run (f : FifoConfig) (p : List Byte) (rest : List Entry) (room : Nat) (hp : p ≠ []) (hr : run rest = 0) :
    pullPacket f (entriesOf p ++ rest) room =
      if min f.m (min p.length room) = f.m then
        .full (p.take (min f.m (min p.length room))) (entriesOf (p.drop (min f.m (min p.length room))) ++ rest)
      else
        .short (p.take (min f.m (min p.length room))) (decide (min f.m (min p.length room) < p.length))
          (entriesOf (p.drop (min f.m (min p.length room))) ++ rest) := by
  rcases p with _ | ⟨b, p⟩
  · exact absurd rfl hp
  have hrun : run (entriesOf (b :: p) ++ rest) = (b :: p).length := by rw [run_entriesOf_append, hr, Nat.add_zero]
  have hle : min f.m (min (b :: p).length room) ≤ (entriesOf (b :: p)).length := by rw [entriesOf_length]; omega
  show pullPacket f (.byte b :: (entriesOf p ++ rest)) room = _
  have hq : Entry.byte b :: (entriesOf p ++ rest) = entriesOf (b :: p) ++ rest := rfl
  simp only [pullPacket, hq, hrun, List.take_append_of_le_length hle, List.drop_append_of_le_length hle, entriesOf_take,
    entriesOf_drop, bytesOf_entriesOf]

/-- What a pull step takes from the head: nothing from an empty queue, a marker, or leading bytes of the run. -/
theorem pullPacket_splits (f : FifoConfig) (q : List Entry) (room : Nat) :
    (q = [] ∧ pullPacket f q room = .exhausted) ∨
    (∃ q', q = .zlp :: q' ∧ pullPacket f q room = .short [] false q') ∨
    (∃ p q', q = entriesOf p ++ q' ∧ p.length = f.m ∧ p.length ≤ room ∧ pullPacket f q room = .full p q') ∨
    (∃ p cut q', q = entriesOf p ++ q' ∧ p.length ≤ room ∧ p.length < f.m ∧ pullPacket f q room = .short p cut q') := by
  obtain ⟨p, rest, rfl, hl, hrest⟩ := queue_split q
  by_cases hp : p = []
  · subst hp
    rcases hrest with rfl | ⟨q', rfl⟩
    · exact .inl ⟨rfl, rfl⟩
    · exact .inr (.inl ⟨q', rfl, rfl⟩)
  have hr : run rest = 0 := by rcases hrest with rfl | ⟨q', rfl⟩ <;> rfl
  have hpull := pullPacket_run f p rest room hp hr
  have hsplit : entriesOf p ++ rest =
      entriesOf (p.take (min f.m (min p.length room))) ++ (entriesOf (p.drop (min f.m (min p.length room))) ++ rest) := by
    rw [← List.append_assoc, ← entriesOf_append, List.take_append_drop]
  by_cases hm : min f.m (min p.length room) = f.m
  · refine .inr (.inr (.inl ⟨_, _, hsplit, ?_, ?_, hpull.trans (if_pos hm)⟩)) <;> simp only [List.length_take] <;> omega
  · refine .inr (.inr (.inr ⟨_, _, _, hsplit, ?_, ?_, hpull.trans (if_neg hm)⟩)) <;> simp only [List.length_take] <;> omega

/-- What the loop of a read takes: leading bytes, no more than the room, and at most one marker behind them. -/
theorem readLoop_splits (f : FifoConfig) (n : Nat) (q : List Entry) (room : Nat) (acc : List Byte) :
    ∃ d, (readLoop f n q room acc).data = acc ++ d ∧ d.length ≤ room ∧
      (q = entriesOf d ++ (readLoop f n q room acc).q ∨ q = entriesOf d ++ .zlp :: (readLoop f n q room acc).q) := by
  induction n generalizing q room acc with
  | zero => exact ⟨[], by simp [readLoop], Nat.zero_le _, .inl rfl⟩
  | succ n ih =>
    rcases pullPacket_splits f q room with ⟨rfl, h⟩ | ⟨q', rfl, h⟩ | ⟨p, q', rfl, hm, hl, h⟩ | ⟨p, cut, q', rfl, hl, hm, h⟩
    · exact ⟨[], by simp [readLoop, h], Nat.zero_le _, .inl (by simp [readLoop, h])⟩
    · exact ⟨[], by simp [readLoop, h], Nat.zero_le _, .inr (by simp [readLoop, h])⟩
    · by_cases hroom : room - p.length = 0
      · exact ⟨p, by simp [readLoop, h, hroom], hl, .inl (by simp [readLoop, h, hroom])⟩
      · obtain ⟨d, hd, hdl, hq⟩ := ih q' (room - p.length) (acc ++ p)
        have hstep : readLoop f (n + 1) (entriesOf p ++ q') room acc = readLoop f n q' (room - p.length) (acc ++ p) := by
          simp [readLoop, h, hroom]
        refine ⟨p ++ d, by rw [hstep, hd, List.append_assoc], by rw [List.length_append]; omega, ?_⟩
        rw [hstep, entriesOf_append]
        rcases hq with hq | hq
        · exact .inl (by rw [List.append_assoc, ← hq])
        · exact .inr (by rw [List.append_assoc, ← hq])
    · exact ⟨p, by simp [readLoop, h], hl, .inl (by simp [readLoop, h])⟩

/-- A read blocks exactly on an empty FIFO (R105, R115). -/
theorem fifoRead_eq_none (f : FifoConfig) (q : List Entry) (l : Nat) : fifoRead f q l = none ↔ q = [] := by
  unfold fifoRead
  split
  · simp_all
  · split <;> simp_all

/-- What a read takes: leading bytes, no more than asked for, and at most one marker behind them. -/
theorem fifoRead_splits {f : FifoConfig} {q : List Entry} {l : Nat} {r : FifoData} (h : fifoRead f q l = some r) :
    q ≠ [] ∧ r.data.length ≤ l ∧ (q = entriesOf r.data ++ r.q ∨ q = entriesOf r.data ++ .zlp :: r.q) := by
  have hq : q ≠ [] := fun hq => by simp [(fifoRead_eq_none f q l).2 hq] at h
  rw [fifoRead, if_neg hq] at h
  by_cases hl : l = 0
  · rw [if_pos hl] at h
    obtain rfl := Option.some.inj h
    exact ⟨hq, Nat.zero_le _, .inl rfl⟩
  · rw [if_neg hl] at h
    obtain ⟨d, hd, hdl, hs⟩ := readLoop_splits f (l / f.m + 1) q l []
    rw [Option.some.inj h] at hd hs
    rw [List.nil_append] at hd
    subst hd
    exact ⟨hq, hdl, hs⟩

/-- A read leaves a suffix, so it keeps the bounds of the FIFO. -/
theorem fifoRead_bounded {f : FifoConfig} {q : List Entry} {l : Nat} {r : FifoData} (h : fifoRead f q l = some r)
    (hb : fifoBounded f q) : fifoBounded f r.q := by
  obtain ⟨-, -, hs⟩ := fifoRead_splits h
  rcases hs with hs | hs
  · exact bounded_of_suffix (f := f) (entriesOf r.data) r.q (hs ▸ hb)
  · refine bounded_of_suffix (f := f) (entriesOf r.data ++ [.zlp]) r.q ?_
    rw [List.append_assoc]
    exact hs ▸ hb

end Sys2Proof.Machine
end

