-- ==== Sys2Proof/Laws/PerInstr.lean ====
section
/-! SUPPORT. Per-instruction lemmas of the family EncodedRow: the word a well-formed instruction encodes to selects that
instruction's own row of the opcode map, CW AND mask == match (spec/30_encoding.md R74). -/

namespace Sys2Proof.Laws

/-- The mask 0xFFFF0000 of the opcode map keeps bits [31:16] and clears ARG. -/
theorem and_mask (w : Word) : w &&& 0xFFFF0000#32 = (w >>> 16) <<< 16 := by
  have hm : (0xFFFF0000#32 : Word) = BitVec.allOnes 32 <<< 16 := by decide
  rw [hm]
  apply BitVec.eq_of_getLsbD_eq
  intro i hi
  simp only [BitVec.getLsbD_and, BitVec.getLsbD_shiftLeft, BitVec.getLsbD_allOnes, BitVec.getLsbD_ushiftRight]
  by_cases h : i < 16
  · simp [h]
  · have h1 : 16 + (i - 16) = i := by omega
    have h2 : i - 16 < 32 := by omega
    simp [h, hi, h1, h2]

/-- A command word with its ARG cleared holds its OP alone. -/
theorem and_mask_commandWord {op arg : Nat} (ho : op < 16) (ha : arg ≤ maxLength) :
    commandWord op arg &&& 0xFFFF0000#32 = BitVec.ofNat 32 (op * 2 ^ 28) := by
  rw [and_mask]
  apply BitVec.eq_of_toNat_eq
  have hw := commandWord_toNat ho ha
  simp only [maxLength] at ha
  simp only [BitVec.toNat_shiftLeft, BitVec.toNat_ushiftRight, BitVec.toNat_ofNat, hw, Nat.shiftLeft_eq,
    Nat.shiftRight_eq_div_pow]
  omega

namespace EncodedRow

/-- A well-formed instruction's word selects its row of the opcode map (30_encoding.md R74). -/
def Statement (i : Instr) : Prop := i.wellFormed = true → (encode i).cw &&& i.row.mask = i.row.bits

theorem pushOut (d : List Byte) : Statement (.pushOut d) := fun h => and_mask_commandWord (op := 1) (by decide) (of_decide_eq_true h)

theorem pullIn (maxLen : Nat) : Statement (.pullIn maxLen) := fun h => and_mask_commandWord (op := 2) (by decide) (of_decide_eq_true h)

theorem devRd (maxLen : Nat) : Statement (.devRd maxLen) := fun h => and_mask_commandWord (op := 3) (by decide) (of_decide_eq_true h)

theorem devWr (d : List Byte) : Statement (.devWr d) := fun h => and_mask_commandWord (op := 4) (by decide) (of_decide_eq_true h)

theorem appWr (d : List Byte) : Statement (.appWr d) := fun h => and_mask_commandWord (op := 5) (by decide) (of_decide_eq_true h)

theorem appRd (dest : Nat) : Statement (.appRd dest) := fun h => and_mask_commandWord (op := 6) (by decide) (of_decide_eq_true h)

theorem poll : Statement .poll := fun _ => by decide

theorem rdreg (r : Reg) : Statement (.rdreg r) := fun _ =>
  and_mask_commandWord (op := 8) (by decide) (Nat.le_trans (number_le r) (by decide))

end EncodedRow

end Sys2Proof.Laws
end

