-- ==== Sys2Proof/Laws/StreamBuffer.lean ====
section
/-! SUPPORT. What the steps of the Stream Buffers (spec/41_stream_buffer.md R140 to R143) can do, said once. -/

namespace Sys2Proof.Machine

/-- The chunk of a flush is no longer than TX.q and fits the IN FIFO (R142). -/
theorem txChunk_le (s : State) :
    s.txChunk ≤ s.cfg.inF.m ∧ s.txChunk ≤ s.txQ.length ∧ s.txChunk ≤ fifoFree s.cfg.inF s.inQ := by
  unfold State.txChunk
  omega

/-- A flush moves the first bytes of TX.q to the tail of IN.q, none when the chunk is empty (R142). -/
theorem txFlush_moves (s : State) :
    s.txFlush = (s.setInQ (s.inQ ++ entriesOf (s.txQ.take s.txChunk))).setTxQ (s.txQ.drop s.txChunk) := by
  unfold State.txFlush
  split
  next h => simp [h, State.setInQ, State.setTxQ]
  next h =>
    have ⟨_, hl, hf⟩ := txChunk_le s
    have hlen : (s.txQ.take s.txChunk).length = s.txChunk := by rw [List.length_take]; omega
    have hne : s.txQ.take s.txChunk ≠ [] := fun h0 => h (by simpa [h0] using hlen.symm)
    rw [fifoWrite_of_fits hne (by omega)]

/-- A pull leaves the state, or moves leading bytes of OUT.q to the tail of RX.q and takes at most one marker behind them (R141). -/
theorem rxPull_moves (s : State) :
    (s.outQ = [] ∧ s.rxPull = s) ∨
    ∃ r, fifoRead s.cfg.outF s.outQ s.rxFree = some r ∧ s.rxPull = (s.setOutQ r.q).setRxQ (s.rxQ ++ r.data) ∧
      r.data.length ≤ s.rxFree ∧ (s.outQ = entriesOf r.data ++ r.q ∨ s.outQ = entriesOf r.data ++ .zlp :: r.q) := by
  unfold State.rxPull
  cases h : fifoRead s.cfg.outF s.outQ s.rxFree with
  | none => exact .inl ⟨(fifoRead_eq_none _ _ _).1 h, rfl⟩
  | some r =>
    obtain ⟨-, hl, hs⟩ := fifoRead_splits h
    exact .inr ⟨r, rfl, rfl, hl, hs⟩

/-- A pull as a function of the parameters, OUT.q and RX.q alone (R141). -/
theorem rxPull_port (k : Config) (q : Queues) :
    ∃ out d, ∀ is rs, State.rxPull ⟨q, k, is, rs⟩ = ⟨{ q with outQ := out, rxQ := q.rxQ ++ d }, k, is, rs⟩ := by
  cases h : fifoRead k.outF q.outQ (k.bRx - q.rxQ.length) with
  | none   => exact ⟨q.outQ, [], fun is rs => by simp [State.rxPull, State.rxFree, h]⟩
  | some r => exact ⟨r.q, r.data, fun is rs => by simp [State.rxPull, State.rxFree, h, State.setOutQ, State.setRxQ]⟩

/-- Every instruction is executed, and what it does to the queues and the one response it gives are a function of the parameters
and the queues: the waiting inputs and the responses given before have no part in it (10_state.md R33, R37; 60_exceptions.md
R180). -/
theorem exec_port (i : Instr) (k : Config) (q : Queues) :
    ∃ q' r, ∀ is rs, exec i ⟨q, k, is, rs⟩ = .next ⟨q', k, is, rs ++ [Resp.encode r]⟩ := by
  let u := State.around k q
  cases i with
  | pushOut d =>
    let w := fifoWrite k.outF q.outQ d
    exact ⟨{ q with outQ := w.q }, .ok w.accepted (zq := w.zq), fun _ _ => rfl⟩
  | devWr d =>
    let w := fifoWrite k.inF q.inQ d
    exact ⟨{ q with inQ := w.q }, .ok w.accepted (zq := w.zq), fun _ _ => rfl⟩
  | rdreg x => exact ⟨q, .ok (regRead u x), fun _ _ => by cases x <;> rfl⟩
  | pullIn n =>
    simp only [exec, execPullIn]
    cases fifoRead k.inF q.inQ n with
    | none   => exact ⟨q, .wouldBlock, fun _ _ => rfl⟩
    | some r => exact ⟨{ q with inQ := r.q }, .ok r.data.length r.data r.term, fun _ _ => rfl⟩
  | devRd n =>
    simp only [exec, execDevRd]
    cases fifoRead k.outF q.outQ n with
    | none   => exact ⟨q, .wouldBlock, fun _ _ => rfl⟩
    | some r => exact ⟨{ q with outQ := r.q }, .ok r.data.length r.data r.term, fun _ _ => rfl⟩
  | appWr d =>
    refine ⟨(u.txCopyIn d).txFlush.toQueues, .ok (u.txAccepts d), fun _ _ => ?_⟩
    simp only [exec, execAppWr, txFlush_moves]
    rfl
  | poll =>
    refine ⟨u.txFlush.toQueues, .ok u.txChunk, fun _ _ => ?_⟩
    simp only [exec, execPoll, txFlush_moves]
    rfl
  | appRd n =>
    obtain ⟨out, d, h⟩ := rxPull_port k q
    let v : State := State.around k { q with outQ := out, rxQ := q.rxQ ++ d }
    simp only [exec, execAppRd, h]
    by_cases hd : q.rxQ ++ d = []
    · simp only [hd, if_true]
      exact ⟨{ q with outQ := out, rxQ := [] }, .wouldBlock, fun _ _ => rfl⟩
    · simp only [hd, if_false]
      exact ⟨(v.rxCopyOut n).toQueues, .ok (v.rxCopied n).length (v.rxCopied n), fun _ _ => rfl⟩

/-- Every instruction is executed: `exec` answers a next state with one more response, and the parameters and the waiting inputs as
they were (60_exceptions.md R180, 10_state.md R37). -/
theorem exec_answers (i : Instr) (s : State) :
    ∃ t p, exec i s = .next t ∧ t.cfg = s.cfg ∧ t.inputs = s.inputs ∧ t.responses = s.responses ++ [p] := by
  obtain ⟨q, r, h⟩ := exec_port i s.cfg s.toQueues
  exact ⟨_, _, h s.inputs s.responses, rfl, rfl, rfl⟩

end Sys2Proof.Machine
end

