-- ==== Sys2Proof/Laws/Step.lean ====
section
/-! SUPPORT. What one step and a run of steps can do, said once: the cases of `step`, and a run peeled one step at a time. -/

namespace Sys2Proof.Machine

/-- The block's step on a command that decodes: the next queues and the one response of that instruction. -/
theorem blockStep_ok {c : Command} {i : Instr} (hd : decode c = .ok i) (k : Config) (q : Queues) :
    ∃ q' p, blockStep k (.command c) q = .next (q', [p]) ∧
      ∀ is rs, exec i ⟨q, k, is, rs⟩ = .next ⟨q', k, is, rs ++ [p]⟩ := by
  obtain ⟨q', r, h⟩ := exec_port i k q
  refine ⟨q', r.encode, ?_, h⟩
  have h0 := h [] []
  simp only [blockStep, State.take, State.around, hd, h0, List.nil_append]

/-- The block's step on an illegal command changes no queue (60_exceptions.md R182). -/
theorem blockStep_illegal {c : Command} {e : DecodeError} (hd : decode c = .error e) (k : Config) (q : Queues) :
    blockStep k (.command c) q = .next (q, [Resp.illegal.encode]) := by
  simp only [blockStep, State.take, hd]
  rfl

/-- The block's step on RESET empties the queues and gives no response (70_reset_and_hazards.md R200). -/
theorem blockStep_reset (k : Config) (q : Queues) : blockStep k .reset q = .next (Queues.empty, []) := rfl

/-- The four things a step of a legal block can do: nothing without an input, RESET, execute the decoded command, or answer an
illegal one (60_exceptions.md R186, 70_reset_and_hazards.md R200). -/
theorem step_cases {s : State} (hs : s.cfg.legal) :
    (s.inputs = [] ∧ step s = .next s) ∨
    (∃ rest, s.inputs = .reset :: rest ∧ step s = .next (s.setInputs rest).doReset) ∨
    (∃ c rest i, s.inputs = .command c :: rest ∧ decode c = .ok i ∧ step s = exec i (s.setInputs rest)) ∨
    (∃ c rest e, s.inputs = .command c :: rest ∧ decode c = .error e ∧ step s = .next (s.setInputs rest).answerIllegal) := by
  match hi : s.inputs with
  | []                 => exact .inl ⟨rfl, by simp only [step, if_pos hs, hi]⟩
  | .reset :: rest     =>
    refine .inr (.inl ⟨rest, rfl, ?_⟩)
    simp only [step, if_pos hs, hi, blockStep_reset, State.accept, List.append_nil]
    rfl
  | .command c :: rest =>
    match hd : decode c with
    | .ok i    =>
      obtain ⟨q, p, hb, he⟩ := blockStep_ok hd s.cfg s.toQueues
      refine .inr (.inr (.inl ⟨c, rest, i, rfl, hd, ?_⟩))
      simp only [step, if_pos hs, hi, hb]
      exact (he rest s.responses).symm
    | .error e =>
      refine .inr (.inr (.inr ⟨c, rest, e, rfl, hd, ?_⟩))
      simp only [step, if_pos hs, hi, blockStep_illegal hd]
      rfl

/-- A step of a legal block ends in a next state, keeps the parameters, takes one input off the port and adds to the responses. -/
theorem step_answers {s : State} (hs : s.cfg.legal) :
    ∃ t ps, step s = .next t ∧ t.cfg = s.cfg ∧ t.inputs = s.inputs.tail ∧ t.responses = s.responses ++ ps := by
  rcases step_cases hs with ⟨hi, h⟩ | ⟨rest, hi, h⟩ | ⟨c, rest, i, hi, -, h⟩ | ⟨c, rest, e, hi, -, h⟩
  · exact ⟨_, [], h, rfl, by rw [hi]; rfl, by simp⟩
  · exact ⟨_, [], h, rfl, by rw [hi]; rfl, by simp⟩
  · obtain ⟨t, p, ht, hc, hin, hr⟩ := exec_answers i (s.setInputs rest)
    exact ⟨t, [p], h.trans ht, hc, by rw [hi]; exact hin, hr⟩
  · exact ⟨_, [Resp.illegal.encode], h, rfl, by rw [hi]; rfl, rfl⟩

/-- No step. -/
theorem run_zero (s : State) : Host.Core.run Sys2Proof.core 0 s = .next s := rfl

/-- A run whose first step is known. -/
theorem run_succ {k : Nat} {s t : State} (h : step s = .next t) :
    Host.Core.run Sys2Proof.core (k + 1) s = Host.Core.run Sys2Proof.core k t := by
  have h' : Sys2Proof.core.step s = .next t := h
  simp only [Host.Core.run, h']

end Sys2Proof.Machine
end

