-- ==== Sys2Proof/Tests/Slice0.lean ====
section
/-! SUPPORT. Tests of the model with expected values taken from spec/ (mostly 95_test_vectors.md), and for every statement with
hypotheses a witness that meets them, one for each clause. -/

namespace Sys2Proof.Tests

open Sys2Proof Sys2Proof.Machine Sys2Proof.Statements

/-- A state built with `k`, with these queues and inputs. -/
def st (k : Config) (out inn : List Entry) (rx tx : List Byte) (is : List Input := []) : State :=
  { cfg := k, outQ := out, inQ := inn, rxQ := rx, txQ := tx, inputs := is, responses := [] }

/-- The bytes `seq(a, n)` of 30_encoding.md R83. -/
def sq (a n : Nat) : List Byte := Text.seqBytes a n

/-- The byte entries `seq(a, n)`. -/
def eq_ (a n : Nat) : List Entry := entriesOf (sq a n)

/-- What `f` reads off the state an instruction leads to. -/
def after {α : Type} (i : Instr) (s : State) (f : State → α) : Option α :=
  match exec i s with
  | .next t => some (f t)
  | _       => none

/-- What `f` reads off the state a step leads to. -/
def afterStep {α : Type} (s : State) (f : State → α) : Option α :=
  match step s with
  | .next t => some (f t)
  | _       => none

/-- Does this state step into another one? -/
def steps (s : State) : Bool := (afterStep s (fun _ => ())).isSome

/-! ### WellFormed refuses (30_encoding.md R71, R72: ARG has 16 bits) -/

theorem test_wf_payload_too_long (b : Byte) : (Instr.pushOut (List.replicate 65536 b)).wellFormed = false := by
  rw [Instr.wellFormed, payloadFits, List.length_replicate]
  decide

theorem test_wf_payload_longest (b : Byte) : (Instr.appWr (List.replicate 65535 b)).wellFormed = true := by
  rw [Instr.wellFormed, payloadFits, List.length_replicate]
  decide

theorem test_wf_length_too_big :
    (Instr.pullIn 65536).wellFormed = false ∧ (Instr.devRd 65536).wellFormed = false ∧ (Instr.appRd 65536).wellFormed = false ∧
      (Instr.pullIn 65535).wellFormed = true := by decide

theorem test_wf_resp_val : (Resp.ok 65536).wellFormed = false ∧ (Resp.ok 65535).wellFormed = true := by decide

/-! ### Decoding words written out from the spec (95_test_vectors.md A1 to A8, A11, H1 to H16) -/

theorem test_decode_push_out : decode ⟨0b00010000000000000000000000000011#32, [1#8, 2#8, 3#8]⟩ = .ok (.pushOut [1#8, 2#8, 3#8]) := by decide
theorem test_decode_pull_in : decode ⟨0b00100000000000000000000001000000#32, []⟩ = .ok (.pullIn 64) := by decide
theorem test_decode_dev_rd : decode ⟨0b00110000000000000000000100101100#32, []⟩ = .ok (.devRd 300) := by decide
theorem test_decode_dev_wr : decode ⟨0b01000000000000000000000000000000#32, []⟩ = .ok (.devWr []) := by decide
theorem test_decode_app_wr : decode ⟨0b01010000000000000000000000000010#32, [65#8, 66#8]⟩ = .ok (.appWr [65#8, 66#8]) := by decide
theorem test_decode_app_rd : decode ⟨0b01100000000000000000000000000000#32, []⟩ = .ok (.appRd 0) := by decide
theorem test_decode_poll : decode ⟨0b01110000000000000000000000000000#32, []⟩ = .ok .poll := by decide
theorem test_decode_rdreg : decode ⟨0b10000000000000000000000000010110#32, []⟩ = .ok (.rdreg .flags) := by decide
theorem test_decode_longest_read : decode ⟨0x2000FFFF#32, []⟩ = .ok (.pullIn 65535) := by decide

theorem test_decode_refuses_words :
    decode ⟨0x00000000#32, []⟩ = .error .reservedOpcode ∧ decode ⟨0x90000000#32, []⟩ = .error .reservedOpcode ∧
    decode ⟨0x10010003#32, [1#8, 2#8, 3#8]⟩ = .error .reservedBits ∧ decode ⟨0x70000001#32, []⟩ = .error .pollArgument ∧
    decode ⟨0x8000000A#32, []⟩ = .error .undefinedRegister ∧ decode ⟨0x8000000F#32, []⟩ = .error .undefinedRegister ∧
    decode ⟨0x80000017#32, []⟩ = .error .undefinedRegister ∧ decode ⟨0x8000FFFF#32, []⟩ = .error .undefinedRegister := by decide

theorem test_decode_refuses_payloads :
    decode ⟨0x10000003#32, [1#8, 2#8]⟩ = .error .payloadLength ∧
    decode ⟨0x10000003#32, [1#8, 2#8, 3#8, 4#8]⟩ = .error .payloadLength ∧
    decode ⟨0x20000040#32, [0#8]⟩ = .error .unexpectedPayload ∧ decode ⟨0x70000000#32, [0#8]⟩ = .error .unexpectedPayload ∧
    decode ⟨0x80000016#32, [1#8]⟩ = .error .unexpectedPayload ∧ decode ⟨0x40000000#32, [1#8]⟩ = .error .payloadLength := by decide

theorem test_decode_table_word :
    decodeTableWord 32 0x10000002 = some (.pushOut [0#8, 0#8]) ∧ decodeTableWord 32 0x2000FFFF = some (.pullIn 65535) ∧
    decodeTableWord 48 0xBBAA40000002 = some (.devWr [0xAA#8, 0xBB#8]) ∧ decodeTableWord 32 0x70000000 = some .poll ∧
    decodeTableWord 32 0x80000016 = some (.rdreg .flags) ∧ decodeTableWord 32 0x90000000 = none := by decide

theorem test_step_runs_table_words :
    [0x10000000, 0x20000000, 0x30000000, 0x40000000, 0x50000000, 0x60000000, 0x70000000, 0x80000016].map
      (fun w => afterStep (State.reset.withFetchWord 32 w) (fun t => t.responses.map Response.rw)) =
    [some [0x02000000#32], some [0x10000000#32], some [0x10000000#32], some [0x02000000#32], some [0x00000000#32],
     some [0x10000000#32], some [0x00000000#32], some [0x00000055#32]] := by decide

/-! ### Streams and text (95_test_vectors.md A1, A10, P1; 30_encoding.md R83) -/

theorem test_command_bytes : (encode (.pushOut [1#8, 2#8, 3#8])).toBytes = [0x03#8, 0#8, 0#8, 0x10#8, 1#8, 2#8, 3#8] := by decide

theorem test_response_bytes : (Resp.ok 3 [1#8, 2#8, 3#8] .short).encode.toBytes = [3#8, 0#8, 0#8, 4#8, 1#8, 2#8, 3#8] := by decide

theorem test_command_stream :
    readCommands [0x02#8, 0#8, 0#8, 0x10#8, 0x48#8, 0x69#8, 0#8, 0#8, 0#8, 0x70#8, 0x10#8, 0#8] =
      ([⟨0x10000002#32, [0x48#8, 0x69#8]⟩, ⟨0x70000000#32, []⟩], [0x10#8, 0#8]) := by decide

theorem test_assemble : Text.assemble ['A', 'P', 'P', '_', 'W', 'R', ' ', '[', '6', '5', ',', '6', '6', ']'] =
    some ⟨0x50000002#32, [65#8, 66#8]⟩ := by decide +kernel

theorem test_seq : sq 254 4 = [254#8, 255#8, 0#8, 1#8] := by decide

theorem test_source_call : (Text.SourceCall.write .host [1#8]).expand = .pushOut [1#8] ∧ (Text.SourceCall.read .device 4).expand = .devRd 4 := by
  decide

theorem test_sent_by : (Instr.pushOut []).sentBy .host = true ∧ Instr.poll.sentBy .host = false ∧ (Instr.rdreg .flags).sentBy .device = true := by
  decide

/-! ### One step of each instruction (95_test_vectors.md; CFG_SMALL) -/

/-- P2, command 1: twenty bytes into an OUT FIFO of sixteen. -/
theorem test_push_out_overflow :
    after (.pushOut (sq 0 20)) (st .small [] [] [] []) (fun t => (t.outQ, t.responses)) =
      some (eq_ 0 16, [⟨0x00000010#32, []⟩]) := by decide +kernel

/-- D: a zero-length packet is queued behind a full FIFO. -/
theorem test_push_out_zlp :
    after (.pushOut []) (st .small (eq_ 0 16) [] [] []) (fun t => (t.outQ, t.responses)) =
      some (eq_ 0 16 ++ [.zlp], [⟨0x02000000#32, []⟩]) := by decide +kernel

/-- P4, command 4: a full packet and two bytes cut from the next. -/
theorem test_pull_in_cut :
    after (.pullIn 10) (st .small [] (eq_ 65 16) [] []) (fun t => (t.inQ, t.responses)) =
      some (eq_ 75 6, [⟨0x0800000A#32, sq 65 10⟩]) := by decide +kernel

/-- P3, command 6: two full packets and then nothing. -/
theorem test_pull_in_drained :
    after (.pullIn 64) (st .small [] (eq_ 16 16) [] []) (fun t => (t.inQ, t.responses)) =
      some ([], [⟨0x0C000010#32, sq 16 16⟩]) := by decide +kernel

/-- D: a read of exactly two packets stops before the marker. -/
theorem test_dev_rd_length :
    after (.devRd 16) (st .small (eq_ 0 16 ++ [.zlp]) [] [] []) (fun t => (t.outQ, t.responses)) =
      some ([.zlp], [⟨0x08000010#32, sq 0 16⟩]) := by decide +kernel

/-- D: a marker alone is a short packet of no bytes. -/
theorem test_dev_rd_marker :
    after (.devRd 16) (st .small [.zlp] [] [] []) (fun t => (t.outQ, t.responses)) = some ([], [⟨0x04000000#32, []⟩]) := by
  decide

/-- S1, command 4: ten bytes into the room of five. -/
theorem test_dev_wr_room :
    after (.devWr (sq 100 10)) (st .small [] (eq_ 5 11) [] []) (fun t => (t.inQ, t.responses)) =
      some (eq_ 5 11 ++ eq_ 100 5, [⟨0x00000005#32, []⟩]) := by decide +kernel

/-- D: with every marker slot taken a zero-length write queues nothing and is still OK (CFG_REF, ZD_IN = 2). -/
theorem test_dev_wr_no_slot :
    after (.devWr []) (st .ref [] [.zlp, .zlp] [] []) (fun t => (t.inQ, t.responses)) =
      some ([.zlp, .zlp], [⟨0x00000000#32, []⟩]) := by decide

/-- E2, command 2: twelve bytes accepted, two of them flushed into the room that is left. -/
theorem test_app_wr_flush_room :
    after (.appWr (sq 100 12)) (st .small [] (eq_ 0 14) [] []) (fun t => (t.inQ, t.txQ, t.responses)) =
      some (eq_ 0 14 ++ eq_ 100 2, sq 102 10, [⟨0x0000000C#32, []⟩]) := by decide +kernel

/-- P4, command 2: the oldest bytes are flushed, not the new ones. -/
theorem test_app_wr_order :
    after (.appWr (sq 77 8)) (st .small [] (eq_ 65 8) [] (sq 73 4)) (fun t => (t.inQ, t.txQ, t.responses)) =
      some (eq_ 65 16, sq 81 4, [⟨0x00000008#32, []⟩]) := by decide +kernel

/-- E4, first read: twelve bytes pulled, four returned. -/
theorem test_app_rd_pull :
    after (.appRd 4) (st .small (eq_ 0 16) [] [] []) (fun t => (t.outQ, t.rxQ, t.responses)) =
      some (eq_ 12 4, sq 4 8, [⟨0x00000004#32, sq 0 4⟩]) := by decide +kernel

/-- D: the marker at the head is consumed and the read blocks. -/
theorem test_app_rd_marker :
    after (.appRd 8) (st .ref [.zlp, .byte 3#8] [] [] []) (fun t => (t.outQ, t.rxQ, t.responses)) =
      some ([.byte 3#8], [], [⟨0x10000000#32, []⟩]) := by decide

/-- E2: one chunk of eight from eleven bytes. -/
theorem test_poll_chunk :
    after .poll (st .small [] [] [] (sq 102 11)) (fun t => (t.inQ, t.txQ, t.responses)) =
      some (eq_ 102 8, sq 110 3, [⟨0x00000008#32, []⟩]) := by decide +kernel

/-- A9: polling pulls nothing. -/
theorem test_poll_pulls_nothing :
    after .poll (st .ref (eq_ 0 10) [] [] []) (fun t => (t.outQ, t.rxQ, t.responses)) =
      some (eq_ 0 10, [], [⟨0x00000000#32, []⟩]) := by decide +kernel

/-- G1: FLAGS after reset. -/
theorem test_rdreg_flags_reset : after (.rdreg .flags) State.reset State.responses = some [⟨0x00000055#32, []⟩] := by decide

/-- G2: FLAGS of the busy block, IN_FULL only. -/
theorem test_rdreg_flags_busy :
    after (.rdreg .flags) (st .small (eq_ 12 4 ++ [.zlp]) (eq_ 0 16) (sq 2 10) (sq 8 4)) State.responses =
      some [⟨0x00000008#32, []⟩] := by decide +kernel

/-- H1: an illegal command on OUT=[3B] changes no queue. -/
theorem test_illegal :
    afterStep (st .ref (eq_ 1 3) [] [] [] [.command ⟨0x00000000#32, []⟩]) (fun t => (t.outQ, t.responses)) =
      some (eq_ 1 3, [⟨0x20000000#32, []⟩]) := by decide

/-- E4, first read, as the block's step: what it takes and answers are queues and a response alone. -/
theorem test_block_step :
    (match blockStep .small (.command ⟨0x60000004#32, []⟩) ⟨eq_ 0 16, [], [], []⟩ with
      | .next r => some r
      | _       => none) = some (⟨eq_ 12 4, [], sq 4 8, []⟩, [⟨0x00000004#32, sq 0 4⟩]) := by decide +kernel

/-- RESET empties the queues (70_reset_and_hazards.md R200). -/
theorem test_reset_event :
    afterStep (st .ref (eq_ 1 3) [.zlp] [7#8] [8#8] [.reset]) (fun t => (t.outQ, t.inQ, t.rxQ, t.txQ)) = some ([], [], [], []) := by
  decide

/-! ### Witnesses: each statement's hypotheses are met, clause by clause

`busy` meets the invariant with something in all four queues; the other states vary it. -/

/-- CFG_SMALL with bytes and a marker in OUT.q, and bytes in the other queues. -/
def busy : State := st .small (eq_ 0 9 ++ [.zlp]) (eq_ 20 16) [7#8] [8#8, 9#8]

theorem busy_inv : busy.Inv := by decide +kernel

/-- `busy` with a list of words on the port. -/
def fed (cs : List Command) : State := busy.setInputs (cs.map .command)

theorem witness_CommandWordFields : (15 < 2 ^ 4 ∧ 4095 < 2 ^ 12 ∧ 65535 < 2 ^ 16) ∧ rsvField 0x10010000#32 ≠ 0 := by decide

theorem witness_IllegalCommands_rsv : illegal ⟨0x10010000#32, []⟩ := .inl (by decide)
theorem witness_IllegalCommands_op_zero : illegal ⟨0x00000000#32, []⟩ := .inr (.inl (by decide))
theorem witness_IllegalCommands_op_nine : illegal ⟨0x90000000#32, []⟩ := .inr (.inr (.inl (by decide)))
theorem witness_IllegalCommands_length : illegal ⟨0x10000001#32, []⟩ := .inr (.inr (.inr (.inl (by decide))))
theorem witness_IllegalCommands_payload : illegal ⟨0x20000000#32, [0#8]⟩ := .inr (.inr (.inr (.inr (.inl (by decide)))))
theorem witness_IllegalCommands_poll : illegal ⟨0x70000001#32, []⟩ := .inr (.inr (.inr (.inr (.inr (.inl (by decide))))))

/-- The reserved register numbers at the ends of their ranges; the defined ones beside them are not reserved. -/
theorem witness_IllegalCommands_register :
    illegal ⟨0x8000000A#32, []⟩ ∧ illegal ⟨0x8000000F#32, []⟩ ∧ illegal ⟨0x80000017#32, []⟩ ∧
      ¬ reservedNumber 0x0009 ∧ ¬ reservedNumber 0x0010 ∧ ¬ reservedNumber 0x0016 := by
  have h : ∀ n, reservedNumber n → opOf (BitVec.ofNat 32 (0x80000000 + n)) = 8 → argOf (BitVec.ofNat 32 (0x80000000 + n)) = n →
      illegal ⟨BitVec.ofNat 32 (0x80000000 + n), []⟩ := fun n h1 h2 h3 =>
    .inr (.inr (.inr (.inr (.inr (.inr ⟨h2, by rw [h3]; exact h1⟩)))))
  unfold reservedNumber at *
  exact ⟨h 0x000A (by decide) (by decide) (by decide), h 0x000F (by decide) (by decide) (by decide),
    h 0x0017 (by decide) (by decide) (by decide), by decide, by decide, by decide⟩

theorem witness_IllegalCommands_state :
    (fed [⟨0x70000001#32, []⟩]).cfg.legal ∧ (fed [⟨0x70000001#32, []⟩]).inputs = .command ⟨0x70000001#32, []⟩ :: [] := by decide

/-- An illegal and a legal command answered; the ordinary commands that change nothing: no byte in TX.q, no marker slot. -/
theorem witness_IllegalCommands_answered :
    (fed [⟨0x70000001#32, []⟩]).Inv ∧ afterStep (fed [⟨0x70000001#32, []⟩]) State.responses = some [⟨0x20000000#32, []⟩] ∧
    (fed [⟨0x20000000#32, []⟩]).Inv ∧ afterStep (fed [⟨0x20000000#32, []⟩]) State.responses = some [⟨0x08000000#32, []⟩] ∧
    (st .ref [] [] [] []).txQ = [] ∧
    (st { Config.ref with outF := { Config.ref.outF with zd := 0 } } [] [] [] []).cfg.outF.zd = 0 := by
  and_intros <;> decide +kernel

theorem witness_DecodeOfEncode :
    (Instr.pushOut [1#8]).wellFormed = true ∧ (Instr.pullIn 65535).wellFormed = true ∧ (Instr.devRd 0).wellFormed = true ∧
    (Instr.devWr []).wellFormed = true ∧ (Instr.appWr [1#8]).wellFormed = true ∧ (Instr.appRd 65535).wellFormed = true ∧
    Instr.poll.wellFormed = true ∧ (Instr.rdreg .mOut).wellFormed = true := by decide

theorem witness_EncodeOfDecode : decode ⟨0x6000FFFF#32, []⟩ = .ok (.appRd 65535) := by decide

theorem witness_CommandStream :
    (∀ i ∈ [Instr.pushOut [1#8, 2#8], .poll, .pullIn 65535], i.wellFormed = true) ∧
      takeCommand [3#8, 0#8, 0#8, 0x10#8, 1#8, 2#8] = none ∧ takeCommand [] = none := by decide

theorem witness_ResponseStream :
    ((Resp.ok 2 [1#8, 2#8] .short).val ≤ 65535 ∧ (Resp.ok 2 [1#8, 2#8] .short).data.length = 2) ∧
      ((Resp.ok 65535).val ≤ 65535 ∧ (Resp.ok 65535).data.length = if Format.w = .r ∧ (Resp.ok 65535).status = .ok then 65535 else 0) ∧
      Resp.wouldBlock.data.length = 0 := by decide

/-- A write that queues a marker, and one that queues none. -/
theorem witness_ResponseWordFields :
    (Resp.ok 65535).val ≤ 65535 ∧
    ((fed [⟨0x40000000#32, []⟩]).Inv ∧
      afterStep (fed [⟨0x40000000#32, []⟩]) (fun t => (t.responses, zlps t.inQ)) = some ([⟨0x02000000#32, []⟩], zlps busy.inQ + 1)) ∧
    (fed [⟨0x10000000#32, []⟩]).Inv ∧
      afterStep (fed [⟨0x10000000#32, []⟩]) (fun t => (t.responses, zlps t.outQ)) = some ([⟨0#32, []⟩], zlps busy.outQ) := by
  and_intros <;> decide +kernel

theorem witness_ResponseDecodesBack : (Resp.ok 65535 [1#8] .drained true).wellFormed = true ∧ Resp.illegal.wellFormed = true := by decide

theorem witness_TextFormParsesBack : (Instr.appWr [255#8]).wellFormed = true ∧ (Resp.ok 65535).val ≤ 65535 := by decide

theorem witness_StepRunsDecodedCommand :
    (fed [⟨0x70000000#32, []⟩]).cfg.legal ∧ (fed [⟨0x70000000#32, []⟩]).inputs = .command ⟨0x70000000#32, []⟩ :: [] ∧
      decode ⟨0x70000000#32, []⟩ = .ok .poll := by decide

theorem witness_ResetEmptiesTheQueues :
    Config.ref.legal ∧ Config.small.legal ∧ (busy.setInputs [.reset]).cfg.legal ∧ (busy.setInputs [.reset]).inputs = .reset :: [] := by
  and_intros <;> decide +kernel

/-- A RESET with a command waiting behind it and a response given before it. -/
theorem witness_ResetKeepsThePort :
    let s := { busy with inputs := [.reset, pollInput], responses := [⟨0x10000000#32, []⟩] }
    s.cfg.legal ∧ s.inputs = .reset :: [pollInput] := by
  and_intros <;> decide

/-- A legal command, an illegal one and a RESET, each first on the port. -/
theorem witness_BlockStepTakesItsInputAsArgument :
    decode ⟨0x6000000C#32, []⟩ = .ok (.appRd 12) ∧ decode ⟨0x00000000#32, []⟩ = .error .reservedOpcode ∧
      busy.cfg.legal ∧ (busy.setInputs [.reset, pollInput]).inputs = .reset :: [pollInput] := by
  and_intros <;> decide

/-- The configuration with the largest sizes is legal; a size of 0, one of 65536 and a reserved transfer type are not. -/
theorem witness_StepWithoutCommand :
    (busy.cfg.legal ∧ busy.inputs = []) ∧
    Config.legal { Config.ref with outF := ⟨65535, 65535, 65535, 0x020F#16⟩, bRx := 65535, bTx := 1 } ∧
    ¬ Config.legal { Config.ref with bRx := 0 } ∧ ¬ Config.legal { Config.ref with bTx := 65536 } ∧
    ¬ Config.legal { Config.ref with inF := ⟨64, 256, 2, 0x0181#16⟩ } := by
  and_intros <;> decide +kernel

theorem witness_FifoWrite : fifoBounded Config.small.outF (eq_ 0 16 ++ [.zlp]) ∧ fifoBounded Config.small.outF [] := by decide +kernel

/-- The three ends of a pull step at `M = 8`: a full packet exactly as long as the run, a run one byte short of it, a cut; the run
ends the queue or stands before a marker. -/
theorem witness_PullPacket :
    (1 ≤ Config.small.outF.m) ∧ endsRun [] ∧ endsRun [.zlp, .byte 1#8] ∧
    (8 ≤ (sq 0 8).length ∧ 8 ≤ 8) ∧ ((sq 0 7).length ≤ 7 ∧ (sq 0 7).length < 8) ∧ (6 < (sq 0 7).length ∧ 6 < 8) :=
  ⟨by decide, .inl rfl, .inr ⟨_, rfl⟩, by decide, by decide, by decide⟩

theorem witness_FifoReadAggregates_empty : 1 ≤ Config.small.outF.m ∧ [Entry.zlp] ≠ [] ∧ fifoRead Config.small.outF [] 0 = none := by decide

theorem witness_FifoReadAggregates_short :
    ∃ p cut q', pullPacket Config.small.outF (eq_ 0 3) 8 = .short p cut q' ∧ eq_ 0 3 ≠ [] := ⟨_, _, _, rfl, by decide⟩

/-- After a full packet: the room is used up, the FIFO is empty, or the read goes on. -/
theorem witness_FifoReadAggregates_full :
    pullPacket Config.small.outF (eq_ 0 9) 8 = .full (sq 0 8) (eq_ 8 1) ∧ (sq 0 8).length = 8 ∧
    pullPacket Config.small.outF (eq_ 0 8) 9 = .full (sq 0 8) [] ∧ (sq 0 8).length < 9 ∧
    pullPacket Config.small.outF (eq_ 0 9) 9 = .full (sq 0 8) (eq_ 8 1) ∧ eq_ 8 1 ≠ [] := by decide +kernel

/-- The four ends of the closed form at `M = 8`: a marker first; a run that is no multiple of `M`, read whole; the length used up,
on a packet border and inside a packet; a whole number of packets with room left, before nothing and before a marker. -/
theorem witness_FifoReadClosedForm :
    (run [Entry.zlp] = 0 ∧ [Entry.zlp] ≠ []) ∧
    (min (run (eq_ 0 9)) 9 = run (eq_ 0 9) ∧ min (run (eq_ 0 9)) 9 % 8 ≠ 0) ∧
    (min (run (eq_ 0 8)) 8 = 8 ∧ min (run (eq_ 0 8)) 8 % 8 = 0) ∧ (min (run (eq_ 0 9)) 7 = 7 ∧ 7 < run (eq_ 0 9)) ∧
    (run (eq_ 0 8) < 9 ∧ run (eq_ 0 8) % 8 = 0 ∧ (eq_ 0 8).drop (run (eq_ 0 8)) = []) ∧
    (run (eq_ 0 8 ++ [Entry.zlp]) < 9 ∧ (eq_ 0 8 ++ [Entry.zlp]).drop (run (eq_ 0 8 ++ [Entry.zlp])) ≠ []) := by decide +kernel

theorem witness_ReadLoopIsBounded : 1 ≤ Config.small.outF.m ∧ min (run (eq_ 0 9)) 64 / Config.small.outF.m + 1 ≤ 2 := by decide +kernel

theorem witness_PushOut : (sq 0 3).length ≤ 65535 ∧ opOf 0x10000003#32 = 1 ∧ (∃ e, decode ⟨0x10000003#32, []⟩ = .error e) :=
  ⟨by decide, by decide, _, rfl⟩

theorem witness_PullIn :
    opOf 0x20000000#32 = 2 ∧ (st .small (eq_ 0 1) [] [] []).inQ = [] ∧ busy.inQ ≠ [] := by decide +kernel

theorem witness_DevRd :
    opOf 0x30000000#32 = 3 ∧ (st .small [] (eq_ 0 1) [] []).outQ = [] ∧ busy.outQ ≠ [] := by decide +kernel

theorem witness_DevWr : ([] : List Byte).length ≤ 65535 ∧ opOf 0x40000000#32 = 4 := by decide

/-- P4, command 2: 8 bytes accepted, 8 flushed. -/
theorem witness_AppWr :
    let s := st .small [] (eq_ 65 8) [] (sq 73 4)
    8 = min (sq 77 8).length (s.cfg.bTx - s.txQ.length) ∧ sq 73 12 = s.txQ ++ (sq 77 8).take 8 ∧
      8 = min s.cfg.inF.m (min (sq 73 12).length (s.cfg.inF.c - resident s.inQ)) ∧ opOf 0x50000000#32 = 5 := by decide +kernel

/-- The pull finds nothing and RX.q is empty; it consumes a marker and RX.q stays empty; it brings bytes. -/
theorem witness_AppRd :
    fifoRead Config.small.outF [] 12 = none ∧ fifoRead Config.small.outF [.zlp] 12 = some ⟨[], .short, []⟩ ∧
      fifoRead Config.small.outF (eq_ 0 9) 12 = some ⟨sq 0 9, .short, []⟩ ∧ sq 0 9 ≠ [] ∧ opOf 0x60000000#32 = 6 := by decide +kernel

theorem witness_Poll : 2 = min busy.cfg.inF.m (min 2 (16 - resident (eq_ 0 3))) ∧ 0 = min busy.cfg.inF.m (min busy.txQ.length (busy.cfg.inF.c - resident busy.inQ)) ∧
    opOf 0x70000000#32 = 7 := by decide +kernel

/-- Nothing in OUT.q; a full RX.q; a marker first; a run first. Of a run: read whole with the marker behind it left; cut by the room;
read whole as full packets, so that the marker behind it goes too. -/
theorem witness_RxPull :
    (fifoRead Config.small.outF [] 12 = none ∧ fifoRead Config.small.outF [.zlp] 12 = some ⟨[], .short, []⟩) ∧
    (st .small [] [] [] []).Inv ∧
    ((st .small (eq_ 0 1) [] (sq 0 12) []).Inv ∧ (st .small (eq_ 0 1) [] (sq 0 12) []).rxQ.length = Config.small.bRx) ∧
    ((st .small [.zlp, .byte 1#8] [] (sq 0 11) []).Inv ∧ (sq 0 11).length < Config.small.bRx) ∧
    (busy.Inv ∧ 1 ≤ run busy.outQ ∧ busy.rxQ.length < busy.cfg.bRx) ∧
    (st .small (eq_ 0 8 ++ [.zlp]) [] [] []).Inv ∧ (st .small (eq_ 0 8 ++ [.zlp]) [] [] []).rxPull.outQ = [] ∧
    (st .small (eq_ 0 9 ++ [.zlp]) [] [] []).rxPull.outQ = [.zlp] ∧
    (st .small (eq_ 0 14) [] [] []).Inv ∧ (st .small (eq_ 0 14) [] [] []).rxPull.outQ = eq_ 12 2 := by
  and_intros <;> decide +kernel

theorem witness_Rdreg :
    (0x0009, Reg.bTx) ∈ registerMap ∧ (0x0016, Reg.flags) ∈ registerMap ∧ opOf 0x80000016#32 = 8 ∧
      (Reg.cntOut, resident busy.outQ) = (Reg.cntOut, 9) := by decide +kernel

theorem witness_Flags_and_Reset : Config.ref.legal ∧ Config.small.legal := by decide

theorem witness_RegistersAgree : busy.Inv ∧ regRead busy .cntIn = regRead busy .cIn ∧ regRead busy .zcntOut = regRead busy .zdOut := by
  decide +kernel

/-- Every instruction leads from `busy` to a next state. -/
theorem witness_CommandsTouchOnlyTheirEnds :
    (∀ i ∈ [Instr.pushOut [1#8], .pullIn 3, .devRd 3, .devWr [], .appWr [1#8], .appRd 3, .poll, .rdreg .flags],
      (after i busy (fun _ => ())).isSome = true) ∧
    decode ⟨0x90000000#32, []⟩ = .error .reservedOpcode ∧ steps (fed [⟨0x90000000#32, []⟩]) = true := by decide +kernel

/-- A step by a legal command, by an illegal one, by RESET and without an input, each from a state with the invariant. -/
theorem witness_EveryStepKeepsInvariant :
    ((fed [⟨0x60000001#32, []⟩]).Inv ∧ steps (fed [⟨0x60000001#32, []⟩]) = true) ∧
    ((fed [⟨0x00000000#32, []⟩]).Inv ∧ steps (fed [⟨0x00000000#32, []⟩]) = true) ∧
    ((busy.setInputs [.reset]).Inv ∧ steps (busy.setInputs [.reset]) = true) ∧ (busy.Inv ∧ steps busy = true) := by
  and_intros <;> decide +kernel

theorem witness_EveryStepKeepsResponsesLegal :
    let s := { fed [⟨0x60000001#32, []⟩] with responses := [⟨0x04000002#32, [1#8, 2#8]⟩, ⟨0x10000000#32, []⟩, ⟨0x20000000#32, []⟩, ⟨0x00000016#32, []⟩] }
    s.Inv ∧ s.responsesLegal ∧ steps s = true := by decide +kernel

theorem witness_EveryCommandIsAnsweredOnce :
    (fed [⟨0x00000000#32, []⟩, ⟨0x70000000#32, []⟩]).Inv ∧
      (fed [⟨0x00000000#32, []⟩, ⟨0x70000000#32, []⟩]).inputs = .command ⟨0x00000000#32, []⟩ :: [.command ⟨0x70000000#32, []⟩] := by
  decide +kernel

/-- WOULD_BLOCK of PULL_IN, of DEV_RD, of APP_RD with no change and of APP_RD with a marker consumed; and an answer that is OK. -/
theorem witness_WouldBlock :
    ((st .small (eq_ 0 1) [] [] []).Inv ∧ (st .small [] (eq_ 0 1) [] []).Inv ∧ (st .small [.zlp] [] [] []).Inv) ∧
    after (.pullIn 0) (st .small (eq_ 0 1) [] [] []) State.responses = some ([] ++ [⟨0x10000000#32, []⟩]) ∧
    after (.devRd 5) (st .small [] (eq_ 0 1) [] []) State.responses = some ([] ++ [⟨0x10000000#32, []⟩]) ∧
    after (.appRd 5) (st .small [] (eq_ 0 1) [] []) State.responses = some ([] ++ [⟨0x10000000#32, []⟩]) ∧
    after (.appRd 5) (st .small [.zlp] [] [] []) State.responses = some ([] ++ [⟨0x10000000#32, []⟩]) ∧
    after (.appRd 5) (st .small (eq_ 0 1) [] [] []) State.responses = some ([] ++ [⟨0x00000001#32, [0#8]⟩]) := by
  and_intros <;> decide +kernel

/-- VAL at its bound: the room of a FIFO, of a Stream Buffer, the packet size, and ARG. -/
theorem witness_ValNeverExceedsItsBounds :
    ((st .small [] [] [] []).Inv ∧ (st .small (eq_ 0 13) [] [] []).Inv ∧ (st .small [] [] [] (sq 0 9)).Inv ∧ busy.Inv) ∧
    after (.pushOut (sq 0 17)) (st .small [] [] [] []) State.responses = some [⟨0x00000010#32, []⟩] ∧
    after (.devWr (sq 0 17)) (st .small [] [] [] []) State.responses = some [⟨0x00000010#32, []⟩] ∧
    after (.appWr (sq 0 13)) (st .small [] [] [] []) State.responses = some [⟨0x0000000C#32, []⟩] ∧
    after (.appRd 13) (st .small (eq_ 0 13) [] [] []) State.responses = some [⟨0x0000000C#32, sq 0 12⟩] ∧
    after .poll (st .small [] [] [] (sq 0 9)) State.responses = some [⟨0x00000008#32, []⟩] ∧
    after (.pullIn 3) busy State.responses = some [⟨0x08000003#32, sq 20 3⟩] := by
  and_intros <;> decide +kernel

theorem witness_QueuesAndCommandDetermineOutcome :
    sameQueues busy { fed [⟨0x70000000#32, []⟩] with responses := [⟨0x10000000#32, []⟩] } ∧
      busy ≠ { fed [⟨0x70000000#32, []⟩] with responses := [⟨0x10000000#32, []⟩] } := by decide +kernel

/-- Two states that differ in the other path, for each path. -/
theorem witness_PathsDoNotInterfere :
    let u := st .small (eq_ 0 9 ++ [.zlp]) [] [7#8] []
    let v := st .small [] (eq_ 20 16) [] [8#8, 9#8]
    busy.cfg = u.cfg ∧ busy.outQ = u.outQ ∧ busy.rxQ = u.rxQ ∧ busy.inQ ≠ u.inQ ∧
    busy.cfg = v.cfg ∧ busy.inQ = v.inQ ∧ busy.txQ = v.txQ ∧ busy.outQ ≠ v.outQ ∧
    (after (.appRd 3) busy (fun _ => ())).isSome = true ∧ (after (.appRd 3) u (fun _ => ())).isSome = true ∧
    (after (.appWr [1#8]) busy (fun _ => ())).isSome = true ∧ (after (.appWr [1#8]) v (fun _ => ())).isSome = true := by decide +kernel

/-- Commands alone, and a RESET with commands before and behind it. -/
theorem witness_RunAnswersEveryCommand :
    (fed [⟨0x00000000#32, []⟩, ⟨0x70000000#32, []⟩]).cfg.legal ∧
      (busy.setInputs [pollInput, .reset, pollInput]).cfg.legal ∧ commandCount [pollInput, .reset, pollInput] = 2 := by
  and_intros <;> decide

/-- A DEV_RD with bytes in OUT.q and none in RX.q. -/
def rxCase : State := st .small (eq_ 0 9) [] [] [] [.command ⟨0x30000003#32, []⟩]

theorem witness_ReceiveStreamLaw :
    rxCase.Inv ∧ rxCase.inputs = [⟨0x30000003#32, []⟩].map .command ++ [] ∧ rxCase.receiveInOrder 1 := by
  refine ⟨by decide +kernel, rfl, ?_⟩
  intro n u c rest l hn hu hi hd
  obtain rfl : n = 0 := Nat.lt_one_iff.1 hn
  obtain rfl : rxCase = u := by injection hu
  rfl

/-- A DEV_WR with bytes in IN.q and none in TX.q. -/
def txCase : State := st .small [] (eq_ 0 9) [] [] [.command ⟨0x40000001#32, [5#8]⟩]

theorem witness_TransmitStreamLaw :
    txCase.Inv ∧ txCase.inputs = [⟨0x40000001#32, [5#8]⟩].map .command ++ [] ∧ txCase.transmitInOrder 1 := by
  refine ⟨by decide +kernel, rfl, ?_⟩
  intro n u c rest d hn hu hi hd
  obtain rfl : n = 0 := Nat.lt_one_iff.1 hn
  obtain rfl : txCase = u := by injection hu
  rfl

/-- Twelve bytes in TX.q, two polls of at most eight, and room for them. -/
theorem witness_PollsDrain :
    let s := st .small [] (eq_ 0 4) [] (sq 4 12) [pollInput, pollInput]
    s.cfg.legal ∧ s.inputs = List.replicate 2 pollInput ++ [] ∧ s.txQ.length ≤ 2 * s.cfg.inF.m ∧
      resident s.inQ + s.txQ.length ≤ s.cfg.inF.c := by decide +kernel

end Sys2Proof.Tests
end

section
/-! The FLAGS view of spec/10_state.md R30, bit by bit, and what RESET leaves (R35). -/

namespace Sys2Proof.Machine

/-- `bitsValue` has the bits of its list, bit 0 first, and zeros behind them. -/
theorem testBit_bitsValue (bs : List Bool) (k : Nat) : (bitsValue bs).testBit k = bs.getD k false := by
  induction bs generalizing k with
  | nil => simp [bitsValue]
  | cons b bs ih =>
    cases k with
    | zero   => cases b <;> simp [bitsValue]
    | succ k =>
      have hdiv : (b.toNat + 2 * bitsValue bs) / 2 = bitsValue bs := by have := b.toNat_lt; omega
      rw [bitsValue, Nat.testBit_succ, hdiv, ih, List.getD_cons_succ]

/-- The bits of FLAGS are those that `flagBits` lists (10_state.md R30). -/
theorem getElem_flags (s : State) {k : Nat} (hk : k < 8) : (flags s)[k] = (flagBits s).getD k false := by
  rw [← BitVec.getLsbD_eq_getElem, flags, BitVec.getLsbD_ofNat, testBit_bitsValue, decide_eq_true hk, Bool.true_and]

/-- With empty queues the six count registers read 0 (10_state.md R35). -/
theorem regRead_counts_of_empty {s : State} (hq : s.toQueues = Queues.empty) :
    ∀ r ∈ [Reg.cntOut, .zcntOut, .cntIn, .zcntIn, .cntRx, .cntTx], regRead s r = 0 := by
  simp [regRead, hq]

/-- With empty queues every EMPTY bit is set, and no FULL bit, since every capacity of a legal block is at least 1
(10_state.md R30, R35). -/
theorem flags_of_empty {s : State} (hs : s.cfg.legal) (hq : s.toQueues = Queues.empty) : flags s = 0x55#8 := by
  obtain ⟨⟨-, ⟨hOut, -⟩, -⟩, ⟨-, ⟨hIn, -⟩, -⟩, ⟨hRx, -⟩, ⟨hTx, -⟩⟩ := hs
  have hbits : flagBits s = [true, false, true, false, true, false, true, false] := by
    simp [flagBits, hq, Nat.ne_of_lt hOut, Nat.ne_of_lt hIn, Nat.ne_of_lt hRx, Nat.ne_of_lt hTx]
  rw [flags, hbits]
  rfl

/-- A step of a legal block with RESET first on the port takes it and resets (70_reset_and_hazards.md R200). -/
theorem step_reset {s : State} {rest : List Input} (hs : s.cfg.legal) (hi : s.inputs = .reset :: rest) :
    step s = .next (s.setInputs rest).doReset := by
  rcases step_cases hs with ⟨hi', -⟩ | ⟨rest', hi', h⟩ | ⟨c, rest', i, hi', -⟩ | ⟨c, rest', e, hi', -⟩ <;>
    cases hi.symm.trans hi'
  exact h

end Sys2Proof.Machine

namespace Sys2Proof.Proofs

open Sys2Proof.Machine

/-- Settles O13: the state after reset and the state RESET leads to both have empty queues and a legal configuration. -/
theorem resetEmptiesTheQueues : Obligations.ResetEmptiesTheQueues := by
  unfold Obligations.ResetEmptiesTheQueues
  constructor
  · intro k hk
    exact ⟨rfl, rfl, rfl, rfl, rfl, regRead_counts_of_empty rfl, flags_of_empty hk rfl⟩
  · intro s rest hs hi
    exact ⟨_, step_reset hs hi, rfl, rfl, rfl, rfl, rfl, regRead_counts_of_empty rfl, flags_of_empty hs rfl⟩

/-- Settles O29: each bit is the entry of `flagBits` at its number. -/
theorem flagsShowEmptyAndFull : Obligations.FlagsShowEmptyAndFull := by
  unfold Obligations.FlagsShowEmptyAndFull
  constructor
  · intro s
    simp [getElem_flags, flagBits]
  · intro k hk
    exact flags_of_empty hk rfl

end Sys2Proof.Proofs
end

section
/-! The words of the command port and their fields (spec/30_encoding.md R71, R78). -/

namespace Sys2Proof

open Statements

theorem opField_eq_opOf (w : Word) : opField w = opOf w := opField_eq w

theorem rsvField_eq_rsvOf (w : Word) : rsvField w = rsvOf w := rsvField_eq w

theorem argField_eq_argOf (w : Word) : argField w = argOf w := argField_eq w

/-- A command word put together from fields that fit is their sum: nothing is carried or lost. -/
theorem toNat_word_of_fields {op rsv arg : Nat} (ho : op < 2 ^ 4) (hr : rsv < 2 ^ 12) (ha : arg < 2 ^ 16) :
    (BitVec.ofNat 32 (op * 2 ^ 28 + rsv * 2 ^ 16 + arg)).toNat = op * 2 ^ 28 + rsv * 2 ^ 16 + arg := by
  rw [BitVec.toNat_ofNat]
  omega

theorem statusCode_eq_code (x : Status) : statusCode x = x.code := by cases x <;> rfl

theorem termCode_eq_code (x : Term) : termCode x = x.code := by cases x <;> rfl

theorem statusCode_lt (x : Status) : statusCode x < 3 := by cases x <;> decide

theorem termCode_lt (x : Term) : termCode x < 4 := by cases x <;> decide

theorem statusCode_eq_two (x : Status) : statusCode x = 2 ↔ x = .illegalCmd := by cases x <;> decide

/-- The response word of an outcome whose VAL fits its field (R78). -/
theorem toNat_encode_rw {r : Resp} (hv : r.val ≤ maxLength) :
    r.encode.rw.toNat = statusCode r.status * 2 ^ 28 + termCode r.term * 2 ^ 26 + r.zq.toNat * 2 ^ 25 + r.val := by
  have hs := statusCode_lt r.status
  have ht := termCode_lt r.term
  have hz := r.zq.toNat_lt
  simp only [maxLength] at hv
  rw [statusCode_eq_code] at hs ⊢
  rw [termCode_eq_code] at ht ⊢
  rw [Resp.encode, BitVec.toNat_ofNat]
  omega

/-- The fields of that word read back (R78). -/
theorem encode_fields {r : Resp} (hv : r.val ≤ maxLength) :
    r.encode.statusField = statusCode r.status ∧ r.encode.termField = termCode r.term ∧ r.encode.zqField = r.zq.toNat ∧
      r.encode.zeroField = 0 ∧ r.encode.valField = r.val := by
  have hs := statusCode_lt r.status
  have ht := termCode_lt r.term
  have hz := r.zq.toNat_lt
  rw [statusField_eq, termField_eq, zqField_eq, zeroField_eq, valField_eq, toNat_encode_rw hv]
  simp only [maxLength] at hv
  omega

end Sys2Proof

namespace Sys2Proof.Proofs

/-- Settles O1: the fields are quotients and remainders of the word. -/
theorem commandWordFields : Obligations.CommandWordFields := by
  unfold Obligations.CommandWordFields
  refine ⟨fun op rsv arg ho hr ha => ?_, word_of_fields, fun c h => ⟨.reservedBits, if_neg h⟩⟩
  rw [opField_eq, rsvField_eq, argField_eq, toNat_word_of_fields ho hr ha]
  omega

end Sys2Proof.Proofs
end

section
/-! Decoding as the case table of spec/30_encoding.md R76, and the illegal commands of R77. -/

namespace Sys2Proof

open Statements

/-- No register has a number above the last one of the map (42_status_access.md R170). -/
theorem regOfNumber_eq_none_of_ge {n : Nat} (hn : 0x17 ≤ n) : regOfNumber n = none := by
  cases h : regOfNumber n with
  | none => rfl
  | some r =>
    have hr := number_le r
    rw [← regOfNumber_eq_some h] at hr
    omega

/-- The decoder's register numbers are the register map written out (42_status_access.md R170). -/
theorem lookup_registerMap (n : Nat) : registerMap.lookup n = regOfNumber n := by
  by_cases hn : n < 0x17
  · revert n
    decide
  · rw [regOfNumber_eq_none_of_ge (Nat.le_of_not_lt hn), List.lookup_eq_none_iff]
    have hmap : ∀ p ∈ registerMap, p.1 < 0x17 := by decide
    intro p hp
    exact bne_iff_ne.2 fun h : n = p.1 => hn (h.trans_lt (hmap p hp))

/-- A number names no register exactly when it is reserved (42_status_access.md R170). -/
theorem regOfNumber_eq_none (n : Nat) : regOfNumber n = none ↔ reservedNumber n := by
  unfold reservedNumber
  by_cases hn : n < 0x17
  · revert n
    decide
  · exact iff_of_true (regOfNumber_eq_none_of_ge (Nat.le_of_not_lt hn)) (.inr (Nat.le_of_not_lt hn))

/-- A result is an error exactly when it holds no value. -/
theorem exists_error_iff_toOption_eq_none {ε α : Type} (x : Except ε α) : (∃ e, x = .error e) ↔ x.toOption = none := by
  cases x <;> simp [Except.toOption]

theorem toOption_decodeWrite (mk : List Byte → Instr) (c : Command) :
    (decodeWrite mk c).toOption = if c.payload.length = argOf c.cw then some (mk c.payload) else none := by
  rw [decodeWrite, argField_eq_argOf]
  split <;> rfl

theorem toOption_decodeRead (mk : Nat → Instr) (c : Command) :
    (decodeRead mk c).toOption = if c.payload.length = 0 then some (mk (argOf c.cw)) else none := by
  simp only [decodeRead, argField_eq_argOf, List.length_eq_zero_iff]
  split <;> rfl

theorem toOption_decodeNone (i : Instr) (c : Command) :
    (decodeNone i c).toOption = if c.payload.length = 0 ∧ argOf c.cw = 0 then some i else none := by
  simp only [decodeNone, argField_eq_argOf, List.length_eq_zero_iff, ite_and]
  split
  · split <;> rfl
  · rfl

theorem toOption_decodeReg (mk : Reg → Instr) (c : Command) :
    (decodeReg mk c).toOption = if c.payload.length = 0 then (registerMap.lookup (argOf c.cw)).map mk else none := by
  simp only [decodeReg, argField_eq_argOf, List.length_eq_zero_iff, lookup_registerMap]
  split
  · cases regOfNumber (argOf c.cw) <;> rfl
  · rfl

end Sys2Proof

namespace Sys2Proof.Proofs

open Sys2Proof.Statements

/-- Settles O3: one case for each operation code, by the lemma about its format's decoder. -/
theorem decodeFollowsRuleTable : Obligations.DecodeFollowsRuleTable := by
  unfold Obligations.DecodeFollowsRuleTable
  intro c
  rw [decode, rsvField_eq_rsvOf, opField_eq_opOf]
  by_cases hr : rsvOf c.cw = 0
  · rw [if_pos hr, if_neg (not_not_intro hr)]
    split
    case h_9 => simp_all [Except.toOption]
    all_goals simp_all [toOption_decodeWrite, toOption_decodeRead, toOption_decodeNone, toOption_decodeReg]
  · rw [if_neg hr, if_pos hr]
    rfl

end Sys2Proof.Proofs

namespace Sys2Proof

open Statements

/-- The causes that R77 lists are those for which the table of R76 has no row. -/
theorem illegal_iff_decode_error (c : Command) : illegal c ↔ ∃ e, decode c = .error e := by
  rw [exists_error_iff_toOption_eq_none, Proofs.decodeFollowsRuleTable c, lookup_registerMap, illegal]
  by_cases hr : rsvOf c.cw = 0
  · match hop : opOf c.cw with
    | 0 | 1 | 2 | 3 | 4 | 5 | 6 | n + 9 => simp [hr]
    | 7 => simp [hr, imp_iff_not_or]
    | 8 => simp [hr, imp_iff_not_or, regOfNumber_eq_none]
  · simp [hr]

end Sys2Proof
end

section
/-! What every command answers (spec/30_encoding.md R77, R78): VAL fits its field, ILLEGAL_CMD goes to the illegal commands alone,
and ZQ tells of a marker put into a FIFO. -/

namespace Sys2Proof.Machine

/-! ### Markers and sizes in the shared operations -/

/-- The number of markers in the two FIFOs. -/
def State.markers (s : State) : Nat := zlps s.outQ + zlps s.inQ

/-- A FIFO write accepts no more than the capacity (40_endpoint_fifo.md R103). -/
theorem fifoWrite_accepted_le (f : FifoConfig) (q : List Entry) (d : List Byte) : (fifoWrite f q d).accepted ≤ f.c := by
  rcases fifoWrite_cases f q d with ⟨-, -, h⟩ | ⟨-, -, h⟩ | ⟨-, h⟩ <;> rw [h]
  · exact Nat.zero_le _
  · exact Nat.zero_le _
  · exact (Nat.min_le_right ..).trans (Nat.sub_le ..)

/-- A FIFO write answers `zq` exactly when its queue holds more markers than before (40_endpoint_fifo.md R103). -/
theorem fifoWrite_zq_iff (f : FifoConfig) (q : List Entry) (d : List Byte) :
    (fifoWrite f q d).zq = true ↔ zlps q < zlps (fifoWrite f q d).q := by
  rcases fifoWrite_cases f q d with ⟨-, -, h⟩ | ⟨-, -, h⟩ | ⟨-, h⟩ <;> simp [h]

/-- A FIFO read returns bytes that were resident and adds no marker (40_endpoint_fifo.md R105). -/
theorem fifoRead_takes {f : FifoConfig} {q : List Entry} {l : Nat} {r : FifoData} (h : fifoRead f q l = some r) :
    r.data.length ≤ resident q ∧ zlps r.q ≤ zlps q := by
  obtain ⟨-, -, hq | hq⟩ := fifoRead_splits h <;> rw [hq] <;> simp

/-- A flush moves bytes only: the markers stay (41_stream_buffer.md R142). -/
theorem markers_txFlush (s : State) : s.txFlush.markers = s.markers := by
  simp [State.markers, txFlush_moves]

/-- A pull adds no marker to OUT.q (41_stream_buffer.md R141). -/
theorem markers_rxPull_le (s : State) : s.rxPull.markers ≤ s.markers := by
  rcases rxPull_moves s with ⟨-, h⟩ | ⟨r, hr, h, -⟩ <;> rw [h]
  exact Nat.add_le_add_right (fifoRead_takes hr).2 _

/-- A pull keeps the bound of RX.q (10_state.md R25, 41_stream_buffer.md R141). -/
theorem rxPull_rxQ_length_le {s : State} (hs : s.rxQ.length ≤ s.cfg.bRx) : s.rxPull.rxQ.length ≤ s.cfg.bRx := by
  rcases rxPull_moves s with ⟨-, h⟩ | ⟨r, -, h, hl, -⟩ <;> rw [h]
  · exact hs
  · simp only [State.rxFree] at hl
    simp only [State.setRxQ_rxQ, List.length_append]
    omega

/-- Every register value fits 16 bits (42_status_access.md R170). -/
theorem regRead_le {s : State} (hs : s.Inv) (r : Reg) : regRead s r ≤ maxLength := by
  obtain ⟨⟨hOut, hIn, hRx, hTx⟩, ⟨hro, hzo⟩, ⟨hri, hzi⟩, hrx, htx⟩ := hs
  obtain ⟨⟨-, hMo⟩, ⟨-, hCo⟩, hZo, -⟩ := hOut
  obtain ⟨⟨-, hMi⟩, ⟨-, hCi⟩, hZi, -⟩ := hIn
  have hattr (a : Half) : a.toNat ≤ maxLength := Nat.le_of_lt_succ a.isLt
  have hflags : (flags s).toNat ≤ maxLength := (flags s).isLt.le.trans (by decide)
  cases r with
  | attrOut | attrIn => exact hattr _
  | flags => exact hflags
  | _ => simp only [regRead]; omega

/-! ### The answer of a command -/

/-- The outcome `r` is what `t` answers beyond `s`: VAL fits its field, and ZQ is set exactly when there are more markers in `t`
(30_encoding.md R78). -/
structure Answers (s t : State) (r : Resp) : Prop where
  responses_eq : t.responses = s.responses ++ [r.encode]
  val_le       : r.val ≤ maxLength
  zq_iff       : r.zq = true ↔ s.markers < t.markers

/-- An outcome without ZQ, given in a state with no more markers than before. -/
theorem Answers.respond {s t : State} {r : Resp} (hr : t.responses = s.responses) (hm : t.markers ≤ s.markers)
    (hv : r.val ≤ maxLength) (hz : r.zq = false) : Answers s (t.respond r) r where
  responses_eq := by rw [State.respond_responses, hr]
  val_le       := hv
  zq_iff       := by
    have hm' : ¬ s.markers < (t.respond r).markers := Nat.not_lt.2 hm
    simp [hz, hm']

/-- PULL_IN answers WOULD_BLOCK, or bytes that were resident with their count as VAL (40_endpoint_fifo.md R111). -/
theorem execPullIn_answers {s : State} (hs : s.Inv) (n : Nat) :
    ∃ t r, exec (.pullIn n) s = .next t ∧ Answers s t r ∧ r.status ≠ .illegalCmd := by
  obtain ⟨⟨-, ⟨-, ⟨-, hc⟩, -⟩, -⟩, -, ⟨hb, -⟩, -⟩ := hs
  simp only [exec, execPullIn]
  cases h : fifoRead s.cfg.inF s.inQ n with
  | none => exact ⟨_, _, rfl, .respond rfl le_rfl (Nat.zero_le _) rfl, nofun⟩
  | some r =>
    obtain ⟨hl, hz⟩ := fifoRead_takes h
    exact ⟨_, _, rfl, .respond rfl (Nat.add_le_add_left hz _) (hl.trans (hb.trans hc)) rfl, nofun⟩

/-- DEV_RD answers as PULL_IN does, from the OUT FIFO (40_endpoint_fifo.md R112). -/
theorem execDevRd_answers {s : State} (hs : s.Inv) (n : Nat) :
    ∃ t r, exec (.devRd n) s = .next t ∧ Answers s t r ∧ r.status ≠ .illegalCmd := by
  obtain ⟨⟨⟨-, ⟨-, hc⟩, -⟩, -⟩, ⟨hb, -⟩, -⟩ := hs
  simp only [exec, execDevRd]
  cases h : fifoRead s.cfg.outF s.outQ n with
  | none => exact ⟨_, _, rfl, .respond rfl le_rfl (Nat.zero_le _) rfl, nofun⟩
  | some r =>
    obtain ⟨hl, hz⟩ := fifoRead_takes h
    exact ⟨_, _, rfl, .respond rfl (Nat.add_le_add_right hz _) (hl.trans (hb.trans hc)) rfl, nofun⟩

/-- APP_RD pulls, which adds no marker, and answers WOULD_BLOCK or bytes of RX.q (41_stream_buffer.md R146). -/
theorem execAppRd_answers {s : State} (hs : s.Inv) (n : Nat) :
    ∃ t r, exec (.appRd n) s = .next t ∧ Answers s t r ∧ r.status ≠ .illegalCmd := by
  obtain ⟨⟨-, -, ⟨-, hB⟩, -⟩, -, -, hrx, -⟩ := hs
  have hresp : s.rxPull.responses = s.responses := by
    rcases rxPull_moves s with ⟨-, h⟩ | ⟨r, -, h, -⟩ <;> simp [h]
  have hm := markers_rxPull_le s
  simp only [exec, execAppRd]
  split
  · exact ⟨_, _, rfl, .respond hresp hm (Nat.zero_le _) rfl, nofun⟩
  · refine ⟨_, _, rfl, .respond hresp hm ?_ rfl, nofun⟩
    exact (List.length_take_le' ..).trans ((rxPull_rxQ_length_le hrx).trans hB)

/-- Every instruction ends in a next state with a proper answer, which is never ILLEGAL_CMD (30_encoding.md R77, R78). -/
theorem exec_answers_properly {s : State} (hs : s.Inv) (i : Instr) :
    ∃ t r, exec i s = .next t ∧ Answers s t r ∧ r.status ≠ .illegalCmd := by
  have ⟨⟨⟨_, ⟨_, hCo⟩, _⟩, ⟨⟨_, hMi⟩, ⟨_, hCi⟩, _⟩, _, ⟨_, hB⟩⟩, _⟩ := hs
  cases i with
  | pushOut d =>
    refine ⟨_, _, rfl, ⟨rfl, (fifoWrite_accepted_le ..).trans hCo, ?_⟩, nofun⟩
    exact (fifoWrite_zq_iff ..).trans (Nat.add_lt_add_iff_right).symm
  | devWr d =>
    refine ⟨_, _, rfl, ⟨rfl, (fifoWrite_accepted_le ..).trans hCi, ?_⟩, nofun⟩
    exact (fifoWrite_zq_iff ..).trans (Nat.add_lt_add_iff_left).symm
  | pullIn n => exact execPullIn_answers hs n
  | devRd n => exact execDevRd_answers hs n
  | appRd n => exact execAppRd_answers hs n
  | appWr d =>
    refine ⟨_, _, rfl, .respond ?_ (markers_txFlush _).le ?_ rfl, nofun⟩
    · simp [txFlush_moves, State.txCopyIn]
    · exact (Nat.min_le_right ..).trans ((Nat.sub_le ..).trans hB)
  | poll =>
    refine ⟨_, _, rfl, .respond ?_ (markers_txFlush _).le ((txChunk_le s).1.trans hMi) rfl, nofun⟩
    simp [txFlush_moves]
  | rdreg x => exact ⟨_, _, rfl, .respond rfl le_rfl (regRead_le hs x) rfl, nofun⟩

/-- A step of a legal block with a command first on the port executes it if it decodes, and answers it ILLEGAL_CMD if not
(60_exceptions.md R182, R186). -/
theorem step_command {s : State} {c : Command} {rest : List Input} (hs : s.cfg.legal) (hi : s.inputs = .command c :: rest) :
    (∃ i, decode c = .ok i ∧ step s = exec i (s.setInputs rest)) ∨
    (∃ e, decode c = .error e ∧ step s = .next (s.setInputs rest).answerIllegal) := by
  rcases step_cases hs with ⟨hi', -⟩ | ⟨_, hi', -⟩ | ⟨_, _, i, hi', h⟩ | ⟨_, _, e, hi', h⟩ <;> cases hi.symm.trans hi'
  · exact .inl ⟨i, h⟩
  · exact .inr ⟨e, h⟩

/-- An illegal command is answered so and does nothing else (60_exceptions.md R182). -/
theorem step_illegal {s : State} {c : Command} {rest : List Input} (hs : s.cfg.legal) (hi : s.inputs = .command c :: rest)
    (hc : Statements.illegal c) : step s = .next (s.setInputs rest).answerIllegal := by
  obtain ⟨e, he⟩ := (illegal_iff_decode_error c).1 hc
  rcases step_command hs hi with ⟨i, hd, -⟩ | ⟨e', -, h⟩
  · cases hd.symm.trans he
  · exact h

/-- From a state with the invariant every command is answered, with ILLEGAL_CMD exactly when it is illegal (30_encoding.md
R77). -/
theorem step_answers_command {s : State} {c : Command} {rest : List Input} (hs : s.Inv) (hi : s.inputs = .command c :: rest) :
    ∃ t r, step s = .next t ∧ Answers s t r ∧ (r.status = .illegalCmd ↔ Statements.illegal c) := by
  rw [illegal_iff_decode_error]
  rcases step_command hs.1 hi with ⟨i, hd, h⟩ | ⟨e, hd, h⟩ <;> rw [h, hd]
  · obtain ⟨t, r, ht, ⟨hr, hv, hz⟩, hne⟩ := exec_answers_properly (s := s.setInputs rest) hs i
    exact ⟨t, r, ht, ⟨hr, hv, hz⟩, by simp [hne]⟩
  · exact ⟨_, .illegal, rfl, .respond rfl le_rfl (Nat.zero_le _) rfl, by simp [Resp.illegal]⟩

/-- A response that a step appends is the encoding of such an answer. -/
theorem answer_of_step {s t : State} {c : Command} {rest : List Input} {p : Response} (hs : s.Inv)
    (hi : s.inputs = .command c :: rest) (hstep : step s = .next t) (hp : t.responses = s.responses ++ [p]) :
    ∃ r, p = r.encode ∧ Answers s t r ∧ (r.status = .illegalCmd ↔ Statements.illegal c) := by
  obtain ⟨t', r, ht, ha, hill⟩ := step_answers_command hs hi
  cases hstep.symm.trans ht
  exact ⟨r, by simpa using hp.symm.trans ha.responses_eq, ha, hill⟩

end Sys2Proof.Machine

namespace Sys2Proof.Proofs

open Sys2Proof.Machine Sys2Proof.Statements

/-- Settles O4: the step's answer has STATUS 2 for an illegal command alone, and the three ordinary commands move nothing. -/
theorem illegalCommandsChangeNothing : Obligations.IllegalCommandsChangeNothing := by
  unfold Obligations.IllegalCommandsChangeNothing
  refine ⟨illegal_iff_decode_error, ?_, ?_, ?_, ?_, ?_⟩
  · exact fun s c rest hs hi hc => step_illegal hs hi hc
  · intro s t c rest p hs hi hstep hp
    obtain ⟨r, rfl, ha, hill⟩ := answer_of_step hs hi hstep hp
    rw [(encode_fields ha.val_le).1, statusCode_eq_two, hill]
  · intro s hs
    have hk : s.txChunk = 0 := Nat.le_zero.1 ((txChunk_le s).2.1.trans (by rw [hs]; exact le_rfl))
    simp only [exec, execPoll, State.txFlush, hk]
    rfl
  · intro s hs
    have hw : fifoWrite s.cfg.outF s.outQ [] = { q := s.outQ, accepted := 0, zq := false } := by simp [fifoWrite, hs]
    simp only [exec, execPushOut, hw]
    rfl
  · exact fun s r => ⟨_, rfl⟩

/-- Settles O9: the first half is the encoder's arithmetic, the second the answer that every command gets. -/
theorem responseWordFields : Obligations.ResponseWordFields := by
  unfold Obligations.ResponseWordFields
  constructor
  · intro r hv
    obtain ⟨hs, ht, hz, h0, hval⟩ := encode_fields hv
    exact ⟨toNat_encode_rw hv, hs, ht, hz, h0, hval, rfl⟩
  · intro s t c rest p hs hi hstep hp
    obtain ⟨r, rfl, ha, -⟩ := answer_of_step hs hi hstep hp
    obtain ⟨-, -, hz, h0, -⟩ := encode_fields ha.val_le
    rw [hz, Bool.toNat_eq_one]
    exact ⟨h0, ha.zq_iff⟩

end Sys2Proof.Proofs
end

section
/-! The endpoint FIFOs' write, pull step and aggregating read (spec/40_endpoint_fifo.md R103 to R105). -/

namespace Sys2Proof.Machine

open Statements

/-! ### The write (R103) -/

theorem fifoWrite_q (f : FifoConfig) (q : List Entry) (d : List Byte) : (fifoWrite f q d).q = afterWrite f q d := by
  rcases fifoWrite_cases f q d with ⟨rfl, hz, h⟩ | ⟨rfl, hz, h⟩ | ⟨hd, h⟩ <;> rw [h]
  · simp [afterWrite, hz]
  · simp [afterWrite, hz]
  · simp [afterWrite, hd, entriesOf, fifoFree, ← List.take_take]

theorem fifoWrite_accepted (f : FifoConfig) (q : List Entry) (d : List Byte) :
    (fifoWrite f q d).accepted = if d = [] then 0 else min d.length (f.c - resident q) := by
  rcases fifoWrite_cases f q d with ⟨rfl, -, h⟩ | ⟨rfl, -, h⟩ | ⟨hd, h⟩ <;> rw [h]
  · rfl
  · rfl
  · exact (if_neg hd).symm

/-- `zq` tells of a zero-length write that found a free slot. -/
theorem fifoWrite_zq_iff_marker (f : FifoConfig) (q : List Entry) (d : List Byte) :
    (fifoWrite f q d).zq = true ↔ d = [] ∧ zlps q < f.zd := by
  rcases fifoWrite_cases f q d with ⟨hd, hz, h⟩ | ⟨-, hz, h⟩ | ⟨hd, h⟩ <;> rw [h]
  · simp [hd, hz]
  · simp [hz]
  · simp [hd]

theorem resident_fifoWrite (f : FifoConfig) (q : List Entry) (d : List Byte) :
    resident (fifoWrite f q d).q = resident q + (fifoWrite f q d).accepted := by
  rcases fifoWrite_cases f q d with ⟨-, -, h⟩ | ⟨-, -, h⟩ | ⟨-, h⟩ <;> simp [h]

/-- A write keeps both bounds of the FIFO (10_state.md R22). -/
theorem fifoWrite_bounded {f : FifoConfig} {q : List Entry} (d : List Byte) (hq : fifoBounded f q) :
    fifoBounded f (fifoWrite f q d).q := by
  obtain ⟨hc, hz⟩ := hq
  constructor
  · rw [resident_fifoWrite, fifoWrite_accepted]
    split <;> omega
  · rcases fifoWrite_cases f q d with ⟨-, hfree, h⟩ | ⟨-, -, h⟩ | ⟨-, h⟩ <;> rw [h]
    · simpa using hfree
    · exact hz
    · simpa using hz

/-! ### The pull step (R104) -/

theorem run_of_endsRun {rest : List Entry} (h : endsRun rest) : run rest = 0 := by
  obtain rfl | ⟨q, rfl⟩ := h <;> rfl

/-- The run holds a whole packet and there is room for it. -/
theorem pullPacket_full {f : FifoConfig} {p : List Byte} {rest : List Entry} {room : Nat} (hp : p ≠ []) (hr : endsRun rest)
    (hm : f.m ≤ p.length) (hroom : f.m ≤ room) :
    pullPacket f (entriesOf p ++ rest) room = .full (p.take f.m) (entriesOf (p.drop f.m) ++ rest) := by
  have hn : min f.m (min p.length room) = f.m := by omega
  rw [pullPacket_run f p rest room hp (run_of_endsRun hr), hn, if_pos rfl]

/-- The run is shorter than a packet and there is room for it. -/
theorem pullPacket_short {f : FifoConfig} {p : List Byte} {rest : List Entry} {room : Nat} (hp : p ≠ []) (hr : endsRun rest)
    (hroom : p.length ≤ room) (hm : p.length < f.m) :
    pullPacket f (entriesOf p ++ rest) room = .short p false rest := by
  have hn : min f.m (min p.length room) = p.length := by omega
  rw [pullPacket_run f p rest room hp (run_of_endsRun hr), hn, if_neg hm.ne]
  simp

/-- The room ends inside the run and inside the packet. -/
theorem pullPacket_cut {f : FifoConfig} {p : List Byte} {rest : List Entry} {room : Nat} (hp : p ≠ []) (hr : endsRun rest)
    (hroom : room < p.length) (hm : room < f.m) :
    pullPacket f (entriesOf p ++ rest) room = .short (p.take room) true (entriesOf (p.drop room) ++ rest) := by
  have hn : min f.m (min p.length room) = room := by omega
  rw [pullPacket_run f p rest room hp (run_of_endsRun hr), hn, if_neg hm.ne, decide_eq_true hroom]

theorem pullPacket_ne_exhausted {f : FifoConfig} {q : List Entry} (hq : q ≠ []) (room : Nat) :
    pullPacket f q room ≠ .exhausted := by
  rcases pullPacket_splits f q room with ⟨rfl, -⟩ | ⟨_, -, h⟩ | ⟨_, _, -, -, -, h⟩ | ⟨_, _, _, -, -, -, h⟩
  · exact absurd rfl hq
  all_goals simp [h]

/-- A full packet is M bytes long and fits the room. -/
theorem length_of_pullPacket_full {f : FifoConfig} {q q' : List Entry} {room : Nat} {p : List Byte}
    (h : pullPacket f q room = .full p q') : p.length = f.m ∧ p.length ≤ room := by
  rcases pullPacket_splits f q room with ⟨-, h'⟩ | ⟨_, -, h'⟩ | ⟨_, _, -, hm, hl, h'⟩ | ⟨_, _, _, -, -, -, h'⟩ <;>
    cases h.symm.trans h'
  exact ⟨hm, hl⟩

/-! ### The aggregating read (R105) -/

/-- On an exhausted FIFO the loop ends, whatever rounds are left. -/
theorem readLoop_nil (f : FifoConfig) (n room : Nat) (acc : List Byte) :
    readLoop f n [] room acc = { data := acc, term := .drained, q := [] } := by
  cases n <;> rfl

theorem readLoop_short {f : FifoConfig} {q q' : List Entry} {room : Nat} {p : List Byte} {cut : Bool} (n : Nat)
    (acc : List Byte) (h : pullPacket f q room = .short p cut q') :
    readLoop f (n + 1) q room acc = { data := acc ++ p, term := if cut then .length else .short, q := q' } := by
  rw [readLoop, h]

theorem readLoop_full {f : FifoConfig} {q q' : List Entry} {room : Nat} {p : List Byte} (n : Nat) (acc : List Byte)
    (h : pullPacket f q room = .full p q') :
    readLoop f (n + 1) q room acc =
      if room - p.length = 0 then { data := acc ++ p, term := .length, q := q' }
      else readLoop f n q' (room - p.length) (acc ++ p) := by
  rw [readLoop, h]

/-- What was read before the loop only stands before what it reads. -/
theorem readLoop_acc (f : FifoConfig) (n : Nat) (q : List Entry) (room : Nat) (acc : List Byte) :
    readLoop f n q room acc =
      { readLoop f n q room [] with data := acc ++ (readLoop f n q room []).data } := by
  induction n generalizing q room acc with
  | zero => simp [readLoop]
  | succ n ih =>
    match h : pullPacket f q room with
    | .exhausted      => simp [readLoop, h]
    | .short p cut q' => simp [readLoop_short n _ h]
    | .full p q'      =>
      rw [readLoop_full n acc h, readLoop_full n [] h]
      split
      · rfl
      · rw [ih q' _ (acc ++ p), ih q' _ ([] ++ p)]
        simp

/-- A read of at least one byte is the loop. -/
theorem fifoRead_eq_readLoop {f : FifoConfig} {q : List Entry} {l : Nat} (hq : q ≠ []) (hl : 1 ≤ l) :
    fifoRead f q l = some (readLoop f (l / f.m + 1) q l []) := by
  rw [fifoRead, if_neg hq, if_neg (Nat.ne_of_gt hl)]

/-- A short packet ends the read. -/
theorem fifoRead_short {f : FifoConfig} {q q' : List Entry} {l : Nat} {p : List Byte} {cut : Bool} (hq : q ≠ []) (hl : 1 ≤ l)
    (h : pullPacket f q l = .short p cut q') :
    fifoRead f q l = some { data := p, term := if cut then .length else .short, q := q' } := by
  rw [fifoRead_eq_readLoop hq hl, readLoop_short _ _ h, List.nil_append]

/-- A full packet that takes the last of the length ends the read. -/
theorem fifoRead_full_last {f : FifoConfig} {q q' : List Entry} {l : Nat} {p : List Byte} (hq : q ≠ []) (hl : 1 ≤ l)
    (h : pullPacket f q l = .full p q') (hp : p.length = l) :
    fifoRead f q l = some { data := p, term := .length, q := q' } := by
  rw [fifoRead_eq_readLoop hq hl, readLoop_full _ _ h, if_pos (by omega), List.nil_append]

/-- A full packet that leaves a length to read goes on with the rest of the queue. -/
theorem fifoRead_full_more {f : FifoConfig} {q q' : List Entry} {l : Nat} {p : List Byte} (hq : q ≠ [])
    (h : pullPacket f q l = .full p q') (hp : p.length < l) :
    fifoRead f q l = some (readLoop f (l / f.m) q' (l - p.length) p) := by
  rw [fifoRead_eq_readLoop hq (Nat.one_le_of_lt hp), readLoop_full _ _ h, if_neg (by omega), List.nil_append]

/-- The round that read a full packet leaves the rounds that a read of the remaining length has (R107). -/
theorem fifoRead_full_continue {f : FifoConfig} {q q' : List Entry} {l : Nat} {p : List Byte} (hm : 1 ≤ f.m) (hq : q ≠ [])
    (h : pullPacket f q l = .full p q') (hp : p.length < l) (hq' : q' ≠ []) :
    fifoRead f q l = (fifoRead f q' (l - p.length)).map fun r => { r with data := p ++ r.data } := by
  have hlen : p.length = f.m := (length_of_pullPacket_full h).1
  have hrounds : l / f.m = (l - p.length) / f.m + 1 := by
    rw [hlen]
    exact Nat.div_eq_sub_div hm (hlen ▸ hp.le)
  rw [fifoRead_full_more hq h hp, fifoRead_eq_readLoop hq' (Nat.sub_pos_of_lt hp), hrounds, readLoop_acc]
  rfl

end Sys2Proof.Machine

namespace Sys2Proof.Proofs

open Sys2Proof.Machine

/-- Settles O15: one lemma for each part of what a write leaves and answers. -/
theorem fifoWriteTakesWhatFits : Obligations.FifoWriteTakesWhatFits := by
  unfold Obligations.FifoWriteTakesWhatFits
  intro f q d
  exact ⟨fifoWrite_q f q d, fifoWrite_accepted f q d, fifoWrite_zq_iff_marker f q d,
    fun hq => ⟨fifoWrite_bounded d hq, resident_fifoWrite f q d⟩⟩

/-- Settles O16: which of M, the run and the room is the least decides the packet taken from a run. -/
theorem pullPacketTakesOnePacket : Obligations.PullPacketTakesOnePacket := by
  unfold Obligations.PullPacketTakesOnePacket
  intro f room hm hroom
  refine ⟨rfl, fun _ => rfl, fun p rest hp hr => ?_⟩
  refine ⟨?_, pullPacket_full hp hr, pullPacket_short hp hr, pullPacket_cut hp hr⟩
  have hlen : 1 ≤ p.length := List.length_pos_iff.2 hp
  omega

/-- Settles O17: the loop's first round, and after a full packet the read of what is left. -/
theorem fifoReadAggregatesPackets : Obligations.FifoReadAggregatesPackets := by
  unfold Obligations.FifoReadAggregatesPackets
  intro f q l hm
  refine ⟨(fifoRead_eq_none f q l).2, ?_, fun hq hl => ⟨?_, ?_, pullPacket_ne_exhausted hq l, ?_⟩⟩
  · rintro hq rfl
    rw [fifoRead, if_neg hq, if_pos rfl]
  · exact fun p cut q' h => fifoRead_short hq hl h
  · intro p q' h
    refine ⟨(length_of_pullPacket_full h).2, fifoRead_full_last hq hl h, ?_, fifoRead_full_continue hm hq h⟩
    rintro hp rfl
    rw [fifoRead_full_more hq h hp, readLoop_nil]
  · intro r hr
    obtain ⟨-, hlen, -⟩ := fifoRead_splits hr
    exact hlen

end Sys2Proof.Proofs
end

section
/-! The commands of the endpoint FIFOs (spec/40_endpoint_fifo.md R110 to R113): their encoding, what they answer, and when
they are illegal. -/

namespace Sys2Proof

open Statements

/-! ### Encoding and legality by format -/

/-- The operand of a well-formed instruction fits ARG (30_encoding.md R72). -/
theorem arg_le {i : Instr} (hi : i.wellFormed = true) : i.arg ≤ maxLength := by
  cases i with
  | poll    => exact Nat.zero_le _
  | rdreg r => exact (number_le r).trans (by decide)
  | _       => exact of_decide_eq_true hi

theorem opcode_lt (i : Instr) : i.opcode < 16 := by cases i <;> simp [Instr.opcode]

/-- Decoding an encoded instruction gives it back (30_encoding.md R71 to R76). -/
theorem decode_encode {i : Instr} (hi : i.wellFormed = true) : decode (encode i) = .ok i := by
  have hrsv : rsvField (encode i).cw = 0 := rsvField_commandWord (opcode_lt i) (arg_le hi)
  have hop : opField (encode i).cw = i.opcode := opField_commandWord (opcode_lt i) (arg_le hi)
  have harg : argField (encode i).cw = i.arg := argField_commandWord (opcode_lt i) (arg_le hi)
  rw [decode, if_pos hrsv, hop]
  cases i with
  | pushOut d | devWr d | appWr d => exact if_pos harg.symm
  | pullIn n | devRd n | appRd n  => exact (if_pos rfl).trans (by rw [harg]; rfl)
  | poll                          => rfl
  | rdreg r =>
    refine (if_pos rfl).trans ?_
    rw [harg, Instr.arg, regOfNumber_number]

/-- The same with the operation code as the number it is. -/
theorem decode_word {i : Instr} {op : Nat} (hop : i.opcode = op) (hi : i.wellFormed = true) :
    decode ⟨BitVec.ofNat 32 (op * 2 ^ 28 + i.arg), i.payload⟩ = .ok i := by
  subst hop
  exact decode_encode hi

/-- A command of format W with RSV 0 is illegal exactly for a payload that is not ARG bytes long (30_encoding.md R77). -/
theorem onlyIllegalWhen_write {op : Nat} (hop : op = 1 ∨ op = 4 ∨ op = 5) :
    onlyIllegalWhen op fun c => rsvOf c.cw ≠ 0 ∨ c.payload.length ≠ argOf c.cw := by
  intro c hc
  rw [← illegal_iff_decode_error, illegal, hc]
  rcases hop with rfl | rfl | rfl <;> simp

/-- A command of format R with RSV 0 is illegal exactly with a payload (30_encoding.md R77). -/
theorem onlyIllegalWhen_read {op : Nat} (hop : op = 2 ∨ op = 3 ∨ op = 6) :
    onlyIllegalWhen op fun c => rsvOf c.cw ≠ 0 ∨ c.payload ≠ [] := by
  intro c hc
  rw [← illegal_iff_decode_error, illegal, hc]
  rcases hop with rfl | rfl | rfl <;> simp

/-! ### Responses -/

/-- The response of an OK outcome (30_encoding.md R78). -/
theorem encode_ok (val : Nat) (data : List Byte) (term : Term) (zq : Bool) :
    (Resp.ok val data term zq).encode = ⟨okWord (termCode term) zq.toNat val, data⟩ := by
  simp [Resp.encode, Resp.ok, okWord, termCode_eq_code, Status.code]

theorem encode_wouldBlock : Resp.wouldBlock.encode = ⟨0x10000000#32, []⟩ := rfl

end Sys2Proof

namespace Sys2Proof.Machine

open Statements

/-- The response to a write counts the bytes taken, or tells by ZQ of the marker queued (40_endpoint_fifo.md R103). -/
theorem encode_fifoWrite (f : FifoConfig) (q : List Entry) (d : List Byte) :
    (Resp.ok (fifoWrite f q d).accepted (zq := (fifoWrite f q d).zq)).encode = ⟨writeWord f q d, []⟩ := by
  rw [encode_ok]
  rcases fifoWrite_cases f q d with ⟨rfl, hz, h⟩ | ⟨rfl, hz, h⟩ | ⟨hd, h⟩ <;> rw [h]
  · simp [writeWord, hz, okWord, termCode]
  · simp [writeWord, hz, okWord, termCode]
  · simp [writeWord, hd, okWord, termCode, fifoFree]

/-- A FIFO that is not empty does not block (40_endpoint_fifo.md R105). -/
theorem exists_fifoRead_eq_some {q : List Entry} (hq : q ≠ []) (f : FifoConfig) (l : Nat) : ∃ r, fifoRead f q l = some r :=
  Option.ne_none_iff_exists'.1 fun h => hq ((fifoRead_eq_none f q l).1 h)

/-! ### What each command does -/

theorem exec_pushOut (d : List Byte) (s : State) :
    exec (.pushOut d) s =
      .next ((s.setOutQ (fifoWrite s.cfg.outF s.outQ d).q).respond
        (.ok (fifoWrite s.cfg.outF s.outQ d).accepted (zq := (fifoWrite s.cfg.outF s.outQ d).zq))) := rfl

theorem exec_devWr (d : List Byte) (s : State) :
    exec (.devWr d) s =
      .next ((s.setInQ (fifoWrite s.cfg.inF s.inQ d).q).respond
        (.ok (fifoWrite s.cfg.inF s.inQ d).accepted (zq := (fifoWrite s.cfg.inF s.inQ d).zq))) := rfl

theorem exec_pullIn_of_empty {s : State} (hq : s.inQ = []) (n : Nat) : exec (.pullIn n) s = .next (s.respond .wouldBlock) := by
  simp only [exec, execPullIn, (fifoRead_eq_none s.cfg.inF s.inQ n).2 hq]

theorem exec_pullIn_of_read {s : State} {n : Nat} {r : FifoData} (h : fifoRead s.cfg.inF s.inQ n = some r) :
    exec (.pullIn n) s = .next ((s.setInQ r.q).respond (.ok r.data.length r.data r.term)) := by
  simp only [exec, execPullIn, h]

theorem exec_devRd_of_empty {s : State} (hq : s.outQ = []) (n : Nat) : exec (.devRd n) s = .next (s.respond .wouldBlock) := by
  simp only [exec, execDevRd, (fifoRead_eq_none s.cfg.outF s.outQ n).2 hq]

theorem exec_devRd_of_read {s : State} {n : Nat} {r : FifoData} (h : fifoRead s.cfg.outF s.outQ n = some r) :
    exec (.devRd n) s = .next ((s.setOutQ r.q).respond (.ok r.data.length r.data r.term)) := by
  simp only [exec, execDevRd, h]

end Sys2Proof.Machine

namespace Sys2Proof.Proofs

open Sys2Proof.Machine Sys2Proof.Statements

/-- Settles O20: the write to the OUT FIFO and its response word. -/
theorem pushOutWritesOutFifo : Obligations.PushOutWritesOutFifo := by
  unfold Obligations.PushOutWritesOutFifo
  refine ⟨fun d hd => decode_word (i := .pushOut d) (op := 1) rfl (decide_eq_true hd), fun d s => ?_,
    onlyIllegalWhen_write (.inl rfl)⟩
  rw [exec_pushOut, State.respond, encode_fifoWrite, fifoWrite_q]
  rfl

/-- Settles O21: the read of the IN FIFO blocks on an empty queue and on no other. -/
theorem pullInReadsInFifo : Obligations.PullInReadsInFifo := by
  unfold Obligations.PullInReadsInFifo
  refine ⟨fun n hn => decode_word (i := .pullIn n) (op := 2) rfl (decide_eq_true hn), ?_, ?_,
    onlyIllegalWhen_read (.inl rfl)⟩
  · intro n s hq
    rw [exec_pullIn_of_empty hq, State.respond, encode_wouldBlock]
  · intro n s hq
    obtain ⟨r, hr⟩ := exists_fifoRead_eq_some hq s.cfg.inF n
    refine ⟨r, hr, ?_⟩
    rw [exec_pullIn_of_read hr, State.respond, encode_ok]
    rfl

/-- Settles O22: the read of the OUT FIFO blocks on an empty queue and on no other. -/
theorem devRdReadsOutFifo : Obligations.DevRdReadsOutFifo := by
  unfold Obligations.DevRdReadsOutFifo
  refine ⟨fun n hn => decode_word (i := .devRd n) (op := 3) rfl (decide_eq_true hn), ?_, ?_,
    onlyIllegalWhen_read (.inr (.inl rfl))⟩
  · intro n s hq
    rw [exec_devRd_of_empty hq, State.respond, encode_wouldBlock]
  · intro n s hq
    obtain ⟨r, hr⟩ := exists_fifoRead_eq_some hq s.cfg.outF n
    refine ⟨r, hr, ?_⟩
    rw [exec_devRd_of_read hr, State.respond, encode_ok]
    rfl

/-- Settles O23: the write to the IN FIFO and its response word. -/
theorem devWrWritesInFifo : Obligations.DevWrWritesInFifo := by
  unfold Obligations.DevWrWritesInFifo
  refine ⟨fun d hd => decode_word (i := .devWr d) (op := 4) rfl (decide_eq_true hd), fun d s => ?_,
    onlyIllegalWhen_write (.inr (.inl rfl))⟩
  rw [exec_devWr, State.respond, encode_fifoWrite, fifoWrite_q]
  rfl

end Sys2Proof.Proofs
end

section
/-! How much of the run at its head an aggregating read takes (spec/40_endpoint_fifo.md R104, R105). -/

namespace Sys2Proof.Machine

/-- A full packet is cut off the head of the queue. -/
theorem append_of_pullPacket_full {f : FifoConfig} {q q' : List Entry} {room : Nat} {p : List Byte}
    (h : pullPacket f q room = .full p q') : q = entriesOf p ++ q' := by
  rcases pullPacket_splits f q room with ⟨-, h'⟩ | ⟨_, -, h'⟩ | ⟨_, _, hq, -, -, h'⟩ | ⟨_, _, _, -, -, -, h'⟩ <;>
    cases h.symm.trans h'
  exact hq

/-- A short packet ends with the run or with the room; the packet of a marker is empty, as is its run. -/
theorem length_of_pullPacket_short {f : FifoConfig} {q q' : List Entry} {room : Nat} {p : List Byte} {cut : Bool}
    (h : pullPacket f q room = .short p cut q') : p.length = min (run q) room := by
  obtain ⟨b, rest, rfl, -, hrest⟩ := queue_split q
  have hr : run rest = 0 := run_of_endsRun hrest
  by_cases hb : b = []
  · subst hb
    rcases hrest with rfl | ⟨_, rfl⟩ <;> cases h
    simp
  · rw [pullPacket_run f b rest room hb hr] at h
    split at h <;> cases h
    rw [run_entriesOf_append, hr, List.length_take]
    omega

/-- With enough rounds the loop ends only where the run or the room does. -/
theorem length_readLoop_data {f : FifoConfig} {n : Nat} {q : List Entry} {room : Nat} (acc : List Byte)
    (hn : room < n * f.m) : (readLoop f n q room acc).data.length = acc.length + min (run q) room := by
  induction n generalizing q room acc with
  | zero => omega
  | succ n ih =>
    match h : pullPacket f q room with
    | .exhausted =>
      have hq : q = [] := by_contra fun hq => pullPacket_ne_exhausted hq room h
      simp [hq, readLoop_nil]
    | .short p cut q' =>
      rw [readLoop_short n acc h, List.length_append, length_of_pullPacket_short h]
    | .full p q' =>
      obtain ⟨hpm, hpr⟩ := length_of_pullPacket_full h
      have hrun : run q = p.length + run q' := by rw [append_of_pullPacket_full h, run_entriesOf_append]
      have hrounds : room - p.length < n * f.m := by rw [Nat.succ_mul] at hn; omega
      rw [readLoop_full n acc h]
      split
      · rw [List.length_append]
        omega
      · rw [ih _ hrounds, List.length_append]
        omega

/-- A read for no bytes leaves the queue. -/
theorem fifoRead_zero (f : FifoConfig) {q : List Entry} (hq : q ≠ []) :
    fifoRead f q 0 = some { data := [], term := .length, q := q } := by
  rw [fifoRead, if_neg hq, if_pos rfl]

/-- A read of at least one byte from a queue with a marker at its head consumes the marker alone. -/
theorem fifoRead_zlp (f : FifoConfig) (q : List Entry) {l : Nat} (hl : 1 ≤ l) :
    fifoRead f (.zlp :: q) l = some { data := [], term := .short, q := q } :=
  fifoRead_short (p := []) (cut := false) (List.cons_ne_nil _ _) hl rfl

/-- A read that does not block takes the run whole or as many bytes of it as it asks for. -/
theorem length_fifoRead_data {f : FifoConfig} {q : List Entry} {l : Nat} {r : FifoData} (hm : 1 ≤ f.m)
    (h : fifoRead f q l = some r) : r.data.length = min (run q) l := by
  have hq : q ≠ [] := (fifoRead_splits h).1
  rcases Nat.eq_zero_or_pos l with rfl | hl
  · cases (fifoRead_zero f hq).symm.trans h
    simp
  · cases (fifoRead_eq_readLoop hq hl).symm.trans h
    have hn : l < (l / f.m + 1) * f.m := Nat.lt_mul_of_div_lt (Nat.lt_succ_self _) hm
    rw [length_readLoop_data [] hn, List.length_nil, Nat.zero_add]

/-- A read returns the bytes of that part of the run, and the queue it leaves begins behind them or behind the marker there. -/
theorem fifoRead_takes_run {f : FifoConfig} {q : List Entry} {l : Nat} {r : FifoData} (hm : 1 ≤ f.m)
    (h : fifoRead f q l = some r) :
    r.data = bytesOf (q.take (min (run q) l)) ∧
      (r.q = q.drop (min (run q) l) ∨ q.drop (min (run q) l) = .zlp :: r.q) := by
  have hlen : (entriesOf r.data).length = min (run q) l := by rw [entriesOf_length, length_fifoRead_data hm h]
  rw [← hlen]
  obtain ⟨-, -, hq | hq⟩ := fifoRead_splits h <;> rw [hq, List.take_left, List.drop_left, bytesOf_entriesOf]
  · exact ⟨rfl, .inl rfl⟩
  · exact ⟨rfl, .inr rfl⟩

end Sys2Proof.Machine
end

section
/-! The pull step and the commands of the Stream Buffers (spec/41_stream_buffer.md R141, R145 to R147). -/

namespace Sys2Proof

open Statements

/-- POLL with RSV 0 is illegal exactly with an ARG that is not 0 or with a payload (30_encoding.md R77). -/
theorem onlyIllegalWhen_poll : onlyIllegalWhen 7 fun c => rsvOf c.cw ≠ 0 ∨ argOf c.cw ≠ 0 ∨ c.payload ≠ [] := by
  intro c hc
  rw [← illegal_iff_decode_error, illegal, hc]
  simp [or_comm]

end Sys2Proof

namespace Sys2Proof.Machine

/-! ### The pull step (R141) -/

theorem rxPull_of_none {s : State} (h : fifoRead s.cfg.outF s.outQ s.rxFree = none) : s.rxPull = s := by
  rw [State.rxPull, h]

theorem rxPull_of_read {s : State} {r : FifoData} (h : fifoRead s.cfg.outF s.outQ s.rxFree = some r) :
    s.rxPull = (s.setOutQ r.q).setRxQ (s.rxQ ++ r.data) := by
  rw [State.rxPull, h]

/-- A pull moves nothing when there is nothing to move or no room for it. -/
theorem rxPull_of_idle {s : State} (h : s.outQ = [] ∨ s.rxFree = 0) : s.rxPull = s := by
  by_cases hq : s.outQ = []
  · exact rxPull_of_none ((fifoRead_eq_none ..).2 hq)
  · have hfree : s.rxFree = 0 := h.resolve_left hq
    rw [rxPull_of_read (hfree ▸ fifoRead_zero s.cfg.outF hq), List.append_nil]
    rfl

/-- A pull consumes a marker at the head and adds nothing. -/
theorem rxPull_of_zlp {s : State} {q : List Entry} (hq : s.outQ = .zlp :: q) (hfree : 1 ≤ s.rxFree) :
    s.rxPull = s.setOutQ q := by
  rw [rxPull_of_read (hq ▸ fifoRead_zlp s.cfg.outF q hfree), List.append_nil]
  rfl

/-! ### What each command does -/

theorem exec_appWr (d : List Byte) (s : State) :
    exec (.appWr d) s = .next ((s.txCopyIn d).txFlush.respond (.ok (s.txAccepts d))) := rfl

theorem exec_poll (s : State) : exec .poll s = .next (s.txFlush.respond (.ok s.txChunk)) := rfl

/-- APP_RD blocks when the pull leaves RX.q empty (R146). -/
theorem exec_appRd_of_empty {s : State} (h : s.rxPull.rxQ = []) (n : Nat) :
    exec (.appRd n) s = .next (s.rxPull.respond .wouldBlock) := if_pos h

/-- APP_RD returns the first bytes that RX.q holds after the pull and removes them (R143, R146). -/
theorem exec_appRd_of_bytes {s : State} (h : s.rxPull.rxQ ≠ []) (n : Nat) :
    exec (.appRd n) s =
      .next ((s.rxPull.setRxQ (s.rxPull.rxQ.drop n)).respond
        (.ok (min n s.rxPull.rxQ.length) (s.rxPull.rxQ.take n))) := by
  refine (if_neg h).trans ?_
  rw [State.rxCopyOut, State.rxCopied, ← List.drop_eq_drop_min, ← List.take_eq_take_min, List.length_take]

end Sys2Proof.Machine

namespace Sys2Proof.Proofs

open Sys2Proof.Machine Sys2Proof.Statements

/-- Settles O24: the flush moves a chunk of the queue that the copy-in left. -/
theorem appWrCopiesInThenFlushes : Obligations.AppWrCopiesInThenFlushes := by
  unfold Obligations.AppWrCopiesInThenFlushes
  refine ⟨fun d hd => decode_word (i := .appWr d) (op := 5) rfl (decide_eq_true hd), ?_,
    onlyIllegalWhen_write (.inr (.inr rfl))⟩
  rintro d s a k tx rfl rfl rfl
  rw [exec_appWr, txFlush_moves, State.respond, encode_ok]
  rfl

/-- Settles O25: the state after the pull is given by what the read returned, and its RX.q decides between the two answers. -/
theorem appRdPullsThenCopiesOut : Obligations.AppRdPullsThenCopiesOut := by
  unfold Obligations.AppRdPullsThenCopiesOut
  refine ⟨fun n hn => decode_word (i := .appRd n) (op := 6) rfl (decide_eq_true hn), ?_,
    onlyIllegalWhen_read (.inr (.inr rfl))⟩
  intro n s out rx hsome hnone
  have hpull : s.rxPull = (s.setOutQ out).setRxQ rx := by
    cases h : fifoRead s.cfg.outF s.outQ s.rxFree with
    | none =>
      obtain ⟨rfl, rfl⟩ := hnone h
      exact rxPull_of_none h
    | some r =>
      obtain ⟨rfl, rfl⟩ := hsome r h
      exact rxPull_of_read h
  have hrx : s.rxPull.rxQ = rx := by rw [hpull, State.setRxQ_rxQ]
  subst hrx
  constructor
  · intro h
    rw [exec_appRd_of_empty h, State.respond, encode_wouldBlock, hpull]
    rfl
  · intro h
    rw [exec_appRd_of_bytes h, State.respond, encode_ok, hpull]
    rfl

/-- Settles O26: POLL is one flush, which moves one chunk. -/
theorem pollFlushesOneChunk : Obligations.PollFlushesOneChunk := by
  unfold Obligations.PollFlushesOneChunk
  refine ⟨decode_word (i := .poll) (op := 7) rfl rfl, ?_, onlyIllegalWhen_poll⟩
  rintro s k rfl
  rw [exec_poll, txFlush_moves, State.respond, encode_ok]
  rfl

/-- Settles O27: the pull is one read of the free room, and a read takes of a run what fits. -/
theorem rxPullMovesWhatFits : Obligations.RxPullMovesWhatFits := by
  unfold Obligations.RxPullMovesWhatFits
  refine ⟨fun s h => rxPull_of_none h, fun s r h => rxPull_of_read h, ?_⟩
  rintro s ⟨⟨⟨⟨hm, -⟩, -⟩, -⟩, -⟩
  refine ⟨?_, ?_, ?_⟩
  · exact fun h => rxPull_of_idle (h.imp_right fun hfull => by rw [State.rxFree, hfull, Nat.sub_self])
  · exact fun q hq hroom => rxPull_of_zlp hq (Nat.sub_pos_of_lt hroom)
  · intro hrun hroom
    have hne : s.outQ ≠ [] := fun hq => by simp [hq] at hrun
    obtain ⟨r, hr⟩ := exists_fifoRead_eq_some hne s.cfg.outF s.rxFree
    obtain ⟨hdata, hq⟩ := fifoRead_takes_run hm hr
    rw [rxPull_of_read hr]
    exact ⟨congrArg (s.rxQ ++ ·) hdata, r.q, rfl, hq⟩

end Sys2Proof.Proofs
end

section
/-! RDREG (spec/42_status_access.md R170, R171): its encoding, what it answers, and when it is illegal. -/

namespace Sys2Proof

open Statements

/-- The register map numbers each register as the encoder does (42_status_access.md R170). -/
theorem number_of_mem_registerMap : ∀ x ∈ registerMap, x.1 = x.2.number := by decide

/-- RDREG with RSV 0 is illegal exactly with a payload or for a reserved register number (30_encoding.md R77). -/
theorem onlyIllegalWhen_rdreg :
    onlyIllegalWhen 8 fun c => rsvOf c.cw ≠ 0 ∨ c.payload ≠ [] ∨ reservedNumber (argOf c.cw) := by
  intro c hc
  rw [← illegal_iff_decode_error, illegal, hc]
  simp

end Sys2Proof

namespace Sys2Proof.Machine

theorem exec_rdreg (r : Reg) (s : State) : exec (.rdreg r) s = .next (s.respond (.ok (regRead s r))) := rfl

end Sys2Proof.Machine

namespace Sys2Proof.Proofs

open Sys2Proof.Machine Sys2Proof.Statements

/-- Settles O28: the value table of R170 lists, in the order of the register map, each register with what `regRead` gives. -/
theorem rdregReadsWithoutEffect : Obligations.RdregReadsWithoutEffect := by
  unfold Obligations.RdregReadsWithoutEffect
  refine ⟨?_, ?_, onlyIllegalWhen_rdreg⟩
  · intro x hx
    rw [number_of_mem_registerMap x hx]
    exact decode_word (i := .rdreg x.2) (op := 8) rfl rfl
  · intro s x hx
    change x ∈ registerMap.map fun p => (p.2, regRead s p.2) at hx
    obtain ⟨p, -, rfl⟩ := List.mem_map.1 hx
    rw [exec_rdreg, State.respond, encode_ok]
    rfl

end Sys2Proof.Proofs
end

section
/-! How a command ends (spec/60_exceptions.md R180, R181): the conditions of WOULD_BLOCK and what it changes. -/

namespace Sys2Proof.Machine

@[simp] theorem rxPull_responses (s : State) : s.rxPull.responses = s.responses := by
  rcases rxPull_moves s with ⟨-, h⟩ | ⟨r, -, h, -⟩ <;> simp [h]

@[simp] theorem txFlush_responses (s : State) : s.txFlush.responses = s.responses := by
  simp [txFlush_moves]

/-- The one response beyond those given before is the one just given. -/
theorem eq_encode_of_respond {s u : State} {r : Resp} {p : Response} (hu : u.responses = s.responses)
    (hp : (u.respond r).responses = s.responses ++ [p]) : p = r.encode := by
  rw [State.respond_responses, hu] at hp
  simpa using hp.symm

/-- The conditions under which an instruction is answered WOULD_BLOCK (60_exceptions.md R181). -/
def State.lacksDataFor (s : State) : Instr → Prop
  | .pullIn _ => s.inQ = []
  | .devRd _  => s.outQ = []
  | .appRd _  => s.rxPull.rxQ = []
  | _         => False

theorem lacksDataFor_iff (s : State) (i : Instr) :
    s.lacksDataFor i ↔
      (∃ n, i = .pullIn n) ∧ s.inQ.length = 0 ∨ (∃ n, i = .devRd n) ∧ s.outQ.length = 0 ∨
        (∃ n, i = .appRd n) ∧ s.rxPull.rxQ.length = 0 := by
  cases i <;> simp [State.lacksDataFor]

/-- A pull that leaves RX.q empty changed nothing or consumed a marker (41_stream_buffer.md R151). -/
theorem rxPull_of_rxQ_left_empty {s : State} (h : s.rxPull.rxQ = []) :
    s.rxPull = s ∨ s.rxQ = [] ∧ ∃ q, s.outQ = .zlp :: q ∧ s.rxPull = s.setOutQ q := by
  rcases rxPull_moves s with ⟨-, hs⟩ | ⟨r, -, hs, -, hq⟩
  · exact .inl hs
  · rw [hs, State.setRxQ_rxQ, List.append_eq_nil_iff] at h
    obtain ⟨hrx, hdata⟩ := h
    have hpull : s.rxPull = s.setOutQ r.q := by
      rw [hs, hdata, List.append_nil]
      rfl
    rw [hdata] at hq
    rcases hq with hq | hq
    · exact .inl (hpull.trans (congrArg s.setOutQ hq.symm))
    · exact .inr ⟨hrx, r.q, hq, hpull⟩

/-- For lack of data an instruction answers WOULD_BLOCK, and only APP_RD changes anything: its pull may have consumed a marker
(60_exceptions.md R181). -/
theorem exec_of_lacksData {s : State} {i : Instr} (h : s.lacksDataFor i) :
    ∃ u : State, exec i s = .next (u.respond .wouldBlock) ∧
      (u = s ∨ (∃ n, i = .appRd n) ∧ s.rxQ = [] ∧ ∃ q, s.outQ = .zlp :: q ∧ u = s.setOutQ q) := by
  cases i with
  | pullIn n => exact ⟨s, exec_pullIn_of_empty h n, .inl rfl⟩
  | devRd n => exact ⟨s, exec_devRd_of_empty h n, .inl rfl⟩
  | appRd n =>
    exact ⟨s.rxPull, exec_appRd_of_empty h n, (rxPull_of_rxQ_left_empty h).imp_right fun hz => ⟨⟨n, rfl⟩, hz⟩⟩
  | _ => exact h.elim

/-- An instruction that does not lack data answers OK (60_exceptions.md R181), with a VAL that fits its field. -/
theorem exec_of_not_lacksData {s : State} {i : Instr} (hs : s.Inv) (h : ¬ s.lacksDataFor i) :
    ∃ (u : State) (r : Resp), exec i s = .next (u.respond r) ∧ u.responses = s.responses ∧ r.status = .ok ∧
      r.val ≤ maxLength := by
  have ⟨⟨⟨_, ⟨_, hCo⟩, _⟩, ⟨⟨_, hMi⟩, ⟨_, hCi⟩, _⟩, ⟨_, hBr⟩, ⟨_, hBt⟩⟩, ⟨hout, _⟩, ⟨hin, _⟩, hrx, _⟩ := hs
  cases i with
  | pushOut d => exact ⟨_, _, exec_pushOut d s, rfl, rfl, (fifoWrite_accepted_le ..).trans hCo⟩
  | devWr d => exact ⟨_, _, exec_devWr d s, rfl, rfl, (fifoWrite_accepted_le ..).trans hCi⟩
  | pullIn n =>
    obtain ⟨r, hr⟩ := exists_fifoRead_eq_some h s.cfg.inF n
    exact ⟨_, _, exec_pullIn_of_read hr, rfl, rfl, (fifoRead_takes hr).1.trans (hin.trans hCi)⟩
  | devRd n =>
    obtain ⟨r, hr⟩ := exists_fifoRead_eq_some h s.cfg.outF n
    exact ⟨_, _, exec_devRd_of_read hr, rfl, rfl, (fifoRead_takes hr).1.trans (hout.trans hCo)⟩
  | appRd n =>
    have hval : min n s.rxPull.rxQ.length ≤ maxLength :=
      (Nat.min_le_right ..).trans ((rxPull_rxQ_length_le hrx).trans hBr)
    exact ⟨_, _, exec_appRd_of_bytes h n, rxPull_responses s, rfl, hval⟩
  | appWr d =>
    have hval : s.txAccepts d ≤ maxLength := (Nat.min_le_right ..).trans ((Nat.sub_le ..).trans hBt)
    exact ⟨_, _, exec_appWr d s, txFlush_responses _, rfl, hval⟩
  | poll => exact ⟨_, _, exec_poll s, txFlush_responses s, rfl, (txChunk_le s).1.trans hMi⟩
  | rdreg x => exact ⟨_, _, exec_rdreg x s, rfl, rfl, regRead_le hs x⟩

end Sys2Proof.Machine

namespace Sys2Proof.Proofs

open Sys2Proof.Machine Sys2Proof.Statements

/-- Settles O35: a step takes one input off the port, and what it answers to a command has one of the three status codes. -/
theorem everyCommandIsAnsweredOnce : Obligations.EveryCommandIsAnsweredOnce := by
  unfold Obligations.EveryCommandIsAnsweredOnce
  intro s c rest hs hi
  obtain ⟨t, _, ht, -, hin, -⟩ := step_answers hs.1
  obtain ⟨t', r, ht', ⟨hr, hv, -⟩, -⟩ := step_answers_command hs hi
  cases ht.symm.trans ht'
  refine ⟨t, r.encode, ht, by rw [hin, hi, List.tail_cons], hr, ?_⟩
  rw [(encode_fields hv).1]
  have hcode := statusCode_lt r.status
  omega

/-- Settles O36: lack of data gives WOULD_BLOCK and its frame, and every other instruction is answered OK. -/
theorem wouldBlockExactlyForLackOfData : Obligations.WouldBlockExactlyForLackOfData := by
  unfold Obligations.WouldBlockExactlyForLackOfData
  intro i s t p hs ht hp
  rw [← lacksDataFor_iff]
  by_cases h : s.lacksDataFor i
  · obtain ⟨u, hu, hframe⟩ := exec_of_lacksData h
    cases ht.symm.trans hu
    have hresp : u.responses = s.responses := by
      rcases hframe with rfl | ⟨-, -, q, -, rfl⟩ <;> rfl
    have hpw : p = ⟨0x10000000#32, []⟩ := eq_encode_of_respond hresp hp
    refine ⟨iff_of_true (hpw ▸ rfl) h, fun _ => ⟨hpw, ?_⟩⟩
    rcases hframe with rfl | ⟨hi, hrx, q, hq, rfl⟩
    · exact .inl ⟨rfl, rfl, rfl, rfl, rfl⟩
    · exact .inr ⟨hi, hrx, hq, rfl⟩
  · obtain ⟨u, r, hu, hresp, hok, hv⟩ := exec_of_not_lacksData hs h
    cases ht.symm.trans hu
    have hne : p.statusField ≠ 1 := by
      rw [eq_encode_of_respond hresp hp, (encode_fields hv).1, hok]
      decide
    exact ⟨iff_of_false hne h, fun h1 => absurd h1 hne⟩

end Sys2Proof.Proofs
end

section
/-! What a decoded command and a decoded response say of what they were decoded from, and both on a byte stream
(spec/30_encoding.md sections 2, 3, 5 and 6). -/

namespace Sys2Proof

open Statements

/-! ### Every legal command is the encoding of its meaning (R71, R72, R76) -/

theorem eq_of_decodeWrite {mk : List Byte → Instr} {c : Command} {i : Instr} (h : decodeWrite mk c = .ok i) :
    c.payload.length = argField c.cw ∧ i = mk c.payload := by
  rw [decodeWrite] at h
  split at h <;> cases h
  exact ⟨‹_›, rfl⟩

theorem eq_of_decodeRead {mk : Nat → Instr} {c : Command} {i : Instr} (h : decodeRead mk c = .ok i) :
    c.payload = [] ∧ i = mk (argField c.cw) := by
  rw [decodeRead] at h
  split at h <;> cases h
  exact ⟨‹_›, rfl⟩

theorem eq_of_decodeNone {j : Instr} {c : Command} {i : Instr} (h : decodeNone j c = .ok i) :
    c.payload = [] ∧ argField c.cw = 0 ∧ i = j := by
  rw [decodeNone] at h
  split at h
  · split at h <;> cases h
    exact ⟨‹_›, ‹_›, rfl⟩
  · cases h

theorem eq_of_decodeReg {mk : Reg → Instr} {c : Command} {i : Instr} (h : decodeReg mk c = .ok i) :
    c.payload = [] ∧ ∃ r : Reg, argField c.cw = r.number ∧ i = mk r := by
  rw [decodeReg] at h
  split at h
  · split at h
    next r hr =>
      cases h
      exact ⟨‹_›, r, regOfNumber_eq_some hr, rfl⟩
    next => cases h
  · cases h

/-- What a command decodes to has the command's fields and payload as its own. -/
theorem fields_of_decode {c : Command} {i : Instr} (h : decode c = .ok i) :
    rsvField c.cw = 0 ∧ i.opcode = opField c.cw ∧ i.arg = argField c.cw ∧ i.payload = c.payload := by
  have hrsv : rsvField c.cw = 0 := by
    by_contra hr
    rw [decode, if_neg hr] at h
    cases h
  rw [decode, if_pos hrsv] at h
  refine ⟨hrsv, ?_⟩
  split at h
  case h_1 hop | h_4 hop | h_5 hop =>
    obtain ⟨hlen, rfl⟩ := eq_of_decodeWrite h
    exact ⟨hop.symm, hlen, rfl⟩
  case h_2 hop | h_3 hop | h_6 hop =>
    obtain ⟨hnil, rfl⟩ := eq_of_decodeRead h
    exact ⟨hop.symm, rfl, hnil.symm⟩
  case h_7 hop =>
    obtain ⟨hnil, harg, rfl⟩ := eq_of_decodeNone h
    exact ⟨hop.symm, harg.symm, hnil.symm⟩
  case h_8 hop =>
    obtain ⟨hnil, r, harg, rfl⟩ := eq_of_decodeReg h
    exact ⟨hop.symm, harg.symm, hnil.symm⟩
  case h_9 => cases h

/-- A word with RSV zero is put together from its OP and its ARG (R71). -/
theorem commandWord_of_fields {w : Word} (h : rsvField w = 0) : commandWord (opField w) (argField w) = w := by
  have hw := word_of_fields w
  rw [h, Nat.zero_mul, Nat.add_zero] at hw
  rw [commandWord, ← hw, BitVec.ofNat_toNat, BitVec.setWidth_eq]

/-- An instruction is well-formed when its operand fits ARG (R72); the converse is `arg_le`. -/
theorem wellFormed_of_arg_le {i : Instr} (h : i.arg ≤ maxLength) : i.wellFormed = true := by
  cases i with
  | poll | rdreg r => rfl
  | _              => exact decide_eq_true h

theorem encode_of_decode {c : Command} {i : Instr} (h : decode c = .ok i) : encode i = c := by
  obtain ⟨hrsv, hop, harg, hpay⟩ := fields_of_decode h
  rw [encode, hop, harg, hpay, commandWord_of_fields hrsv]

theorem wellFormed_of_decode {c : Command} {i : Instr} (h : decode c = .ok i) : i.wellFormed = true := by
  obtain ⟨-, -, harg, -⟩ := fields_of_decode h
  exact wellFormed_of_arg_le (harg ▸ Nat.le_of_lt_succ (argField_lt c.cw))

/-! ### Commands on a byte stream (R82, R86) -/

/-- The payload of a well-formed instruction is as long as its word says on a stream. -/
theorem payloadLength_encode {i : Instr} (hi : i.wellFormed = true) :
    payloadLength (encode i).cw = (encode i).payload.length := by
  have hrsv : rsvField (encode i).cw = 0 := rsvField_commandWord (opcode_lt i) (arg_le hi)
  have hop : opField (encode i).cw = i.opcode := opField_commandWord (opcode_lt i) (arg_le hi)
  have harg : argField (encode i).cw = i.arg := argField_commandWord (opcode_lt i) (arg_le hi)
  rw [payloadLength, hrsv, hop, harg]
  cases i <;> simp [Instr.opcode, Instr.arg, encode, Instr.payload]

/-- A command whose payload is as long as its word says is cut off the front of a stream. -/
theorem takeCommand_toBytes {c : Command} (hc : payloadLength c.cw = c.payload.length) (rest : List Byte) :
    takeCommand (c.toBytes ++ rest) = some (c, rest) := by
  have hw : wordOfBytes _ = c.cw := wordOfBytes_wordBytes c.cw
  rw [wordBytes_eq] at hw
  simp only [Command.toBytes, wordBytes_eq, List.cons_append, List.nil_append, takeCommand, hw, hc, List.length_append,
    Nat.le_add_right, if_true, List.take_left, List.drop_left]

/-- Enough rounds cut all the commands off a stream that ends in an incomplete one. -/
theorem readCommandsUpTo_flatMap {cs : List Command} {tail : List Byte} {n : Nat}
    (hcs : ∀ c ∈ cs, payloadLength c.cw = c.payload.length) (htail : takeCommand tail = none) (hn : cs.length ≤ n) :
    readCommandsUpTo n (cs.flatMap Command.toBytes ++ tail) = (cs, tail) := by
  induction cs generalizing n with
  | nil => cases n <;> simp [readCommandsUpTo, htail]
  | cons c cs ih =>
    obtain ⟨hc, hcs⟩ := List.forall_mem_cons.1 hcs
    cases n with
    | zero => cases hn
    | succ n =>
      have hrest := ih hcs (Nat.le_of_succ_le_succ hn)
      simp only [List.flatMap_cons, List.append_assoc, readCommandsUpTo, takeCommand_toBytes hc, hrest]

/-- Every command has at least the four bytes of its word, so there are no more commands than bytes. -/
theorem length_le_length_flatMap_toBytes (cs : List Command) : cs.length ≤ (cs.flatMap Command.toBytes).length := by
  induction cs with
  | nil => exact le_rfl
  | cons c cs ih =>
    simp only [List.flatMap_cons, List.length_append, List.length_cons, Command.toBytes, wordBytes, leBytes_length]
    omega

/-! ### Responses (R78 to R80, R82) -/

theorem statusOfCode_statusCode (x : Status) : statusOfCode (statusCode x) = some x := by cases x <;> rfl

theorem termOfCode_termCode (x : Term) : termOfCode (termCode x) = some x := by cases x <;> rfl

theorem statusCode_eq_zero (x : Status) : statusCode x = 0 ↔ x = .ok := by cases x <;> decide

theorem decode_encode_resp {r : Resp} (hv : r.val ≤ maxLength) : r.encode.decode = some r := by
  obtain ⟨hs, ht, hz, h0, hval⟩ := encode_fields hv
  simp only [Response.decode, h0, hs, ht, hz, hval, statusOfCode_statusCode, termOfCode_termCode, encode_data, if_true,
    Bool.toNat_eq_one, Bool.decide_eq_true]

/-- The data that follow a response word on a stream are VAL bytes for an OK answer to format R (R82). -/
theorem responseDataLength_encode (fmt : Format) {r : Resp} (hv : r.val ≤ maxLength) :
    responseDataLength fmt ⟨r.encode.rw, []⟩ = if fmt = .r ∧ r.status = .ok then r.val else 0 := by
  obtain ⟨hs, -, -, -, hval⟩ := encode_fields hv
  change (if fmt = .r ∧ r.encode.statusField = 0 then r.encode.valField else 0) = _
  simp only [hs, hval, statusCode_eq_zero]

/-- A response whose data are as long as its word says is cut off the front of a stream. -/
theorem takeResponse_toBytes {fmt : Format} {p : Response} (hp : responseDataLength fmt ⟨p.rw, []⟩ = p.data.length)
    (rest : List Byte) : takeResponse fmt (p.toBytes ++ rest) = some (p, rest) := by
  have hw : wordOfBytes _ = p.rw := wordOfBytes_wordBytes p.rw
  rw [wordBytes_eq] at hw
  simp only [Response.toBytes, wordBytes_eq, List.cons_append, List.nil_append, takeResponse, hw, hp, List.length_append,
    Nat.le_add_right, if_true, List.take_left, List.drop_left]

end Sys2Proof

namespace Sys2Proof.Proofs

/-- Settles O5: the fields of the encoded word are the instruction's, and the decoder splits on them. -/
theorem decodeOfEncodeIsIdentity : Obligations.DecodeOfEncodeIsIdentity := by
  unfold Obligations.DecodeOfEncodeIsIdentity
  exact fun i hi => decode_encode hi

/-- Settles O6: what decodes has the command's own fields and payload, and RSV zero. -/
theorem encodeOfDecodeIsIdentity : Obligations.EncodeOfDecodeIsIdentity := by
  unfold Obligations.EncodeOfDecodeIsIdentity
  exact fun c i h => ⟨wellFormed_of_decode h, encode_of_decode h⟩

/-- Settles O7: by induction on the commands, each cut off the front by the length that its word gives. -/
theorem commandStreamIsCutBack : Obligations.CommandStreamIsCutBack := by
  unfold Obligations.CommandStreamIsCutBack
  intro is tail his htail
  have hcs : ∀ c ∈ is.map encode, payloadLength c.cw = c.payload.length :=
    List.forall_mem_map.2 fun i hi => payloadLength_encode (his i hi)
  refine readCommandsUpTo_flatMap hcs htail ?_
  rw [List.length_append]
  exact (length_le_length_flatMap_toBytes _).trans (Nat.le_add_right ..)

/-- Settles O8: the response word gives the length of the data behind it. -/
theorem responseStreamIsCutBack : Obligations.ResponseStreamIsCutBack := by
  unfold Obligations.ResponseStreamIsCutBack
  intro fmt r tail hv hlen
  exact takeResponse_toBytes ((responseDataLength_encode fmt hv).trans hlen.symm) tail

/-- Settles O10: each field of the word reads back, and the codes of STATUS and TERM are told apart. -/
theorem responseDecodesBack : Obligations.ResponseDecodesBack := by
  unfold Obligations.ResponseDecodesBack
  exact fun r hr => decode_encode_resp (of_decide_eq_true hr)

/-- Settles O2: fourteen words, each decoded by evaluation. -/
theorem workedEncodingsDecode : Obligations.WorkedEncodingsDecode := by
  unfold Obligations.WorkedEncodingsDecode
  decide

end Sys2Proof.Proofs
end

section
/-! What every command keeps and answers from a state with the invariant (spec/10_state.md R22, R25; 30_encoding.md R78 to R81;
41_stream_buffer.md R155), and so what every step keeps. -/

namespace Sys2Proof.Machine

open Statements

/-! ### The steps of the Stream Buffers keep the invariant -/

theorem txCopyIn_inv {s : State} (hs : s.Inv) (d : List Byte) : (s.txCopyIn d).Inv := by
  obtain ⟨hcfg, hout, hin, hrx, htx⟩ := hs
  refine ⟨hcfg, hout, hin, hrx, ?_⟩
  have hlen : (d.take (s.txAccepts d)).length ≤ s.cfg.bTx - s.txQ.length :=
    (List.length_take_le ..).trans (Nat.min_le_right ..)
  simp only [State.txCopyIn, State.setTxQ_txQ, State.setTxQ_cfg, List.length_append]
  omega

theorem txFlush_inv {s : State} (hs : s.Inv) : s.txFlush.Inv := by
  obtain ⟨hcfg, hout, ⟨hres, hzlps⟩, hrx, htx⟩ := hs
  have hchunk : s.txChunk ≤ s.cfg.inF.c - resident s.inQ := (txChunk_le s).2.2
  rw [txFlush_moves]
  refine ⟨hcfg, hout, ⟨?_, ?_⟩, hrx, ?_⟩
  · simp only [State.setTxQ_inQ, State.setInQ_inQ, State.setTxQ_cfg, State.setInQ_cfg, resident_append, resident_entriesOf,
      List.length_take]
    omega
  · simpa using hzlps
  · exact (List.drop_sublist ..).length_le.trans htx

theorem rxPull_inv {s : State} (hs : s.Inv) : s.rxPull.Inv := by
  have ⟨hcfg, hout, hin, hrx, htx⟩ := hs
  have hlen := rxPull_rxQ_length_le hrx
  rcases rxPull_moves s with ⟨-, h⟩ | ⟨r, hr, h, -⟩
  · rwa [h]
  · rw [h] at hlen ⊢
    exact ⟨hcfg, fifoRead_bounded hr hout, hin, hlen, htx⟩

/-! ### What a command answers -/

/-- The capacity that the bytes of a command go through (41_stream_buffer.md R155); for a register, the largest value. -/
def State.capacityFor (s : State) : Instr → Nat
  | .pushOut _ => s.cfg.outF.c
  | .devRd _   => s.cfg.outF.c
  | .devWr _   => s.cfg.inF.c
  | .pullIn _  => s.cfg.inF.c
  | .appWr _   => s.cfg.bTx
  | .appRd _   => s.cfg.bRx
  | .poll      => s.cfg.inF.m
  | .rdreg _   => maxLength

/-- Every capacity is a size, and fits 16 bits (00_scope.md R6). -/
theorem capacityFor_le {s : State} (hs : s.cfg.legal) (i : Instr) : s.capacityFor i ≤ maxLength := by
  obtain ⟨⟨-, ⟨-, hCo⟩, -⟩, ⟨⟨-, hMi⟩, ⟨-, hCi⟩, -⟩, ⟨-, hBr⟩, ⟨-, hBt⟩⟩ := hs
  cases i with
  | pushOut d | devRd n => exact hCo
  | devWr d | pullIn n  => exact hCi
  | appWr d             => exact hBt
  | appRd n             => exact hBr
  | poll                => exact hMi
  | rdreg r             => exact le_rfl

/-- An answer within the bounds of its command: OK or WOULD_BLOCK, VAL at most ARG where ARG is a length and at most the capacity,
and VAL bytes of data for format R alone (30_encoding.md R79, R81; 41_stream_buffer.md R155). -/
structure Fits (s : State) (i : Instr) (r : Resp) : Prop where
  status          : r.status = .ok ∨ r = .wouldBlock
  val_le_arg      : i.format = .w ∨ i.format = .r → r.val ≤ i.arg
  val_le_capacity : r.val ≤ s.capacityFor i
  data_length     : r.data.length = if i.format = .r then r.val else 0

/-- WOULD_BLOCK has no VAL and no data, so it is within every bound. -/
theorem fits_wouldBlock (s : State) (i : Instr) : Fits s i .wouldBlock :=
  ⟨.inr rfl, fun _ => Nat.zero_le _, Nat.zero_le _, (ite_self 0).symm⟩

/-- The answer to a read counts its data. -/
theorem fits_read {s : State} {i : Instr} {d : List Byte} {t : Term} (hi : i.format = .r) (harg : d.length ≤ i.arg)
    (hcap : d.length ≤ s.capacityFor i) : Fits s i (.ok d.length d t) :=
  ⟨.inl rfl, fun _ => harg, hcap, by rw [if_pos hi]; rfl⟩

/-- The answer to another command has no data. -/
theorem fits_other {s : State} {i : Instr} {v : Nat} {z : Bool} (hi : i.format ≠ .r) (harg : i.format = .w → v ≤ i.arg)
    (hcap : v ≤ s.capacityFor i) : Fits s i (.ok v (zq := z)) :=
  ⟨.inl rfl, fun h => harg (h.resolve_right hi), hcap, by rw [if_neg hi]; rfl⟩

theorem Fits.val_le {s : State} {i : Instr} {r : Resp} (h : Fits s i r) (hs : s.cfg.legal) : r.val ≤ maxLength :=
  h.val_le_capacity.trans (capacityFor_le hs i)

/-- A FIFO write accepts no more than it is given (40_endpoint_fifo.md R103). -/
theorem fifoWrite_accepted_le_length (f : FifoConfig) (q : List Entry) (d : List Byte) :
    (fifoWrite f q d).accepted ≤ d.length := by
  rw [fifoWrite_accepted]
  split
  · exact Nat.zero_le _
  · exact Nat.min_le_left ..

/-- From a state with the invariant an instruction keeps the invariant, and its one answer is within its bounds. -/
theorem exec_of_inv {s : State} (hs : s.Inv) (i : Instr) :
    ∃ (u : State) (r : Resp), exec i s = .next (u.respond r) ∧ u.responses = s.responses ∧ u.Inv ∧ Fits s i r := by
  have ⟨hcfg, hout, hin, hrx, htx⟩ := hs
  cases i with
  | pushOut d =>
    exact ⟨_, _, exec_pushOut d s, rfl, ⟨hcfg, fifoWrite_bounded d hout, hin, hrx, htx⟩,
      fits_other nofun (fun _ => fifoWrite_accepted_le_length ..) (fifoWrite_accepted_le ..)⟩
  | devWr d =>
    exact ⟨_, _, exec_devWr d s, rfl, ⟨hcfg, hout, fifoWrite_bounded d hin, hrx, htx⟩,
      fits_other nofun (fun _ => fifoWrite_accepted_le_length ..) (fifoWrite_accepted_le ..)⟩
  | pullIn n =>
    by_cases hq : s.inQ = []
    · exact ⟨s, _, exec_pullIn_of_empty hq n, rfl, hs, fits_wouldBlock s _⟩
    · obtain ⟨r, hr⟩ := exists_fifoRead_eq_some hq s.cfg.inF n
      exact ⟨_, _, exec_pullIn_of_read hr, rfl, ⟨hcfg, hout, fifoRead_bounded hr hin, hrx, htx⟩,
        fits_read rfl (fifoRead_splits hr).2.1 ((fifoRead_takes hr).1.trans hin.1)⟩
  | devRd n =>
    by_cases hq : s.outQ = []
    · exact ⟨s, _, exec_devRd_of_empty hq n, rfl, hs, fits_wouldBlock s _⟩
    · obtain ⟨r, hr⟩ := exists_fifoRead_eq_some hq s.cfg.outF n
      exact ⟨_, _, exec_devRd_of_read hr, rfl, ⟨hcfg, fifoRead_bounded hr hout, hin, hrx, htx⟩,
        fits_read rfl (fifoRead_splits hr).2.1 ((fifoRead_takes hr).1.trans hout.1)⟩
  | appWr d =>
    exact ⟨_, _, exec_appWr d s, txFlush_responses _, txFlush_inv (txCopyIn_inv hs d),
      fits_other nofun (fun _ => Nat.min_le_left ..) ((Nat.min_le_right ..).trans (Nat.sub_le ..))⟩
  | appRd n =>
    have hpull := rxPull_inv hs
    by_cases hq : s.rxPull.rxQ = []
    · exact ⟨_, _, exec_appRd_of_empty hq n, rxPull_responses s, hpull, fits_wouldBlock s _⟩
    · obtain ⟨hcfg', hout', hin', hrx', htx'⟩ := hpull
      refine ⟨_, _, exec_appRd_of_bytes hq n, rxPull_responses s,
        ⟨hcfg', hout', hin', (List.drop_sublist ..).length_le.trans hrx', htx'⟩, ?_⟩
      rw [← List.length_take]
      exact fits_read rfl (List.length_take_le ..) ((List.length_take_le' ..).trans (rxPull_rxQ_length_le hrx))
  | poll => exact ⟨_, _, exec_poll s, txFlush_responses s, txFlush_inv hs, fits_other nofun nofun (txChunk_le s).1⟩
  | rdreg x => exact ⟨_, _, exec_rdreg x s, rfl, hs, fits_other nofun nofun (regRead_le hs x)⟩

/-- The response of an answer within its bounds has a legal form (30_encoding.md R78, R79, R81). -/
theorem Fits.responseLegal {s : State} {i : Instr} {r : Resp} (h : Fits s i r) (hs : s.cfg.legal) :
    responseLegal r.encode := by
  obtain ⟨hstatus, -, -, hzero, hval⟩ := encode_fields (h.val_le hs)
  refine ⟨hzero, ?_⟩
  rcases h.status with hok | rfl
  · refine .inl ⟨hstatus.trans ((statusCode_eq_zero _).2 hok), ?_⟩
    have hdata := h.data_length
    rw [hval, encode_data]
    split at hdata
    · exact .inr hdata
    · exact .inl (List.length_eq_zero_iff.1 hdata)
  · exact .inr (.inl rfl)

/-! ### A step -/

/-- From a state with the invariant a step keeps it, and adds legal responses alone. -/
theorem step_of_inv {s t : State} (hs : s.Inv) (h : step s = .next t) :
    t.Inv ∧ ∃ ps, t.responses = s.responses ++ ps ∧ ∀ p ∈ ps, responseLegal p := by
  rcases step_cases hs.1 with ⟨-, h'⟩ | ⟨rest, -, h'⟩ | ⟨c, rest, i, -, -, h'⟩ | ⟨c, rest, e, -, -, h'⟩ <;> rw [h'] at h
  · cases h
    exact ⟨hs, [], (List.append_nil _).symm, nofun⟩
  · cases h
    exact ⟨⟨hs.1, ⟨Nat.zero_le _, Nat.zero_le _⟩, ⟨Nat.zero_le _, Nat.zero_le _⟩, Nat.zero_le _, Nat.zero_le _⟩,
      [], (List.append_nil _).symm, nofun⟩
  · obtain ⟨u, r, hu, hresp, hinv, hfits⟩ := exec_of_inv (s := s.setInputs rest) hs i
    cases h.symm.trans hu
    refine ⟨hinv, [r.encode], congrArg (· ++ [r.encode]) hresp, ?_⟩
    exact List.forall_mem_singleton.2 (hfits.responseLegal hs.1)
  · cases h
    exact ⟨hs, [Resp.illegal.encode], rfl, List.forall_mem_singleton.2 (by decide)⟩

/-- The state after reset meets both invariants, with empty queues and no responses (10_state.md R35). -/
theorem resetOf_inv {k : Config} (hk : k.legal) : (State.resetOf k).Inv ∧ (State.resetOf k).responsesLegal :=
  ⟨⟨hk, ⟨Nat.zero_le _, Nat.zero_le _⟩, ⟨Nat.zero_le _, Nat.zero_le _⟩, Nat.zero_le _, Nat.zero_le _⟩, nofun⟩

end Sys2Proof.Machine

namespace Sys2Proof.Proofs

open Sys2Proof.Machine

/-- Settles O33: each operation of a command keeps the bounds of the queues it writes, and no step writes the parameters. -/
theorem everyStepKeepsInvariant : Obligations.EveryStepKeepsInvariant := by
  unfold Obligations.EveryStepKeepsInvariant
  exact fun s t hs h => (step_of_inv hs h).1

/-- Settles O34: what a step adds is the response of an answer within its bounds, or ILLEGAL_CMD. -/
theorem everyStepKeepsResponsesLegal : Obligations.EveryStepKeepsResponsesLegal := by
  unfold Obligations.EveryStepKeepsResponsesLegal
  intro s t hs hold h
  obtain ⟨-, ps, hps, hnew⟩ := step_of_inv hs h
  unfold State.responsesLegal
  rw [hps]
  exact List.forall_mem_append.2 ⟨hold, hnew⟩

/-- Settles O37: the bounds of the answer, read off its response. -/
theorem valNeverExceedsItsBounds : Obligations.ValNeverExceedsItsBounds := by
  unfold Obligations.ValNeverExceedsItsBounds
  intro i s t p hs ht hp
  obtain ⟨u, r, hu, hresp, -, hfits⟩ := exec_of_inv hs i
  cases ht.symm.trans hu
  obtain rfl := eq_encode_of_respond hresp hp
  obtain ⟨-, -, -, -, hval⟩ := encode_fields (hfits.val_le hs.1)
  obtain ⟨-, harg, hcap, hdata⟩ := hfits
  have hcap' (j : Instr) (h : i = j) : r.val ≤ s.capacityFor j := h ▸ hcap
  rw [hval, encode_data]
  exact ⟨harg, fun hi => hdata.trans (if_pos hi), fun hi => List.length_eq_zero_iff.1 (hdata.trans (if_neg hi)),
    fun d => hcap' (.pushOut d), fun d => hcap' (.devWr d), fun d => hcap' (.appWr d), fun n => hcap' (.appRd n),
    hcap' .poll⟩

/-- Settles O32: CFG_REF is one of the legal configurations. -/
theorem resetMeetsInvariants : Obligations.ResetMeetsInvariants := by
  unfold Obligations.ResetMeetsInvariants
  exact ⟨fun k hk => resetOf_inv hk, resetOf_inv (by decide)⟩

end Sys2Proof.Proofs
end

section
/-! The step of the block and the port around it (spec/10_state.md R33, R37; 20_memory.md R57; 60_exceptions.md R191; log entries
1, 2, 4, 5 and 6). -/

namespace Sys2Proof.Machine

/-- The block takes every input, and gives one response to a command and none to RESET. -/
theorem blockStep_answers (k : Config) (x : Input) (q : Queues) :
    ∃ q' ps, blockStep k x q = .next (q', ps) ∧ ps.length = commandCount [x] := by
  cases x with
  | reset => exact ⟨_, _, blockStep_reset k q, rfl⟩
  | command c =>
    match hd : decode c with
    | .ok i =>
      obtain ⟨q', p, h, -⟩ := blockStep_ok hd k q
      exact ⟨q', [p], h, rfl⟩
    | .error e => exact ⟨_, _, blockStep_illegal hd k q, rfl⟩

/-- A step of a legal block puts in place what the block's step answers on the oldest input. -/
theorem step_of_blockStep {s : State} {x : Input} {rest : List Input} {r : Queues × List Response} (hs : s.cfg.legal)
    (hi : s.inputs = x :: rest) (h : blockStep s.cfg x s.toQueues = .next r) : step s = .next (s.accept rest r) := by
  simp only [step, if_pos hs, hi, h]

/-- A step of a legal block on a command that decodes is that instruction (60_exceptions.md R186). -/
theorem step_of_decode {s : State} {c : Command} {rest : List Input} {i : Instr} (hs : s.cfg.legal)
    (hi : s.inputs = .command c :: rest) (hd : decode c = .ok i) : step s = exec i (s.setInputs rest) := by
  rcases step_command hs hi with ⟨j, hj, h⟩ | ⟨e, he, -⟩
  · cases hj.symm.trans hd
    exact h
  · cases he.symm.trans hd

/-- A step of a legal block on a command that does not decode answers it ILLEGAL_CMD (60_exceptions.md R182). -/
theorem step_of_decode_error {s : State} {c : Command} {rest : List Input} {e : DecodeError} (hs : s.cfg.legal)
    (hi : s.inputs = .command c :: rest) (hd : decode c = .error e) : step s = .next (s.setInputs rest).answerIllegal :=
  step_illegal hs hi ((illegal_iff_decode_error c).2 ⟨e, hd⟩)

theorem step_idle {s : State} (hs : s.cfg.legal) (hi : s.inputs = []) : step s = .next s := by
  simp only [step, if_pos hs, hi]

theorem commandCount_cons (x : Input) (is : List Input) : commandCount (x :: is) = commandCount [x] + commandCount is := by
  cases x <;> simp [commandCount, Nat.add_comm]

/-- A run of a legal block meets neither a fault nor a refusal (60_exceptions.md R191). -/
theorem runsSafely_of_legal (n : Nat) {s : State} (hs : s.cfg.legal) : runsSafely n s := by
  induction n generalizing s with
  | zero => exact ⟨s, rfl⟩
  | succ n ih =>
    obtain ⟨t, -, ht, hcfg, -⟩ := step_answers hs
    obtain ⟨u, hu⟩ := ih (s := t) (hcfg ▸ hs)
    exact ⟨u, (run_succ ht).trans hu⟩

/-- A run of as many steps as there are inputs takes them all and answers each command once (60_exceptions.md R180, R191). -/
theorem run_inputs {is : List Input} {s : State} (hs : s.cfg.legal) (hi : s.inputs = is) :
    ∃ t : State, Host.Core.run core is.length s = .next t ∧ t.inputs = [] ∧
      ∃ ps, t.responses = s.responses ++ ps ∧ ps.length = commandCount is := by
  induction is generalizing s with
  | nil => exact ⟨s, rfl, hi, [], (List.append_nil _).symm, rfl⟩
  | cons x is ih =>
    obtain ⟨q, ps, hb, hlen⟩ := blockStep_answers s.cfg x s.toQueues
    obtain ⟨t, ht, htin, ps', hps', hlen'⟩ := ih (s := s.accept is (q, ps)) hs rfl
    refine ⟨t, (run_succ (step_of_blockStep hs hi hb)).trans ht, htin, ps ++ ps', ?_, ?_⟩
    · rw [hps', ← List.append_assoc]
      rfl
    · rw [List.length_append, hlen, hlen', commandCount_cons x is]

end Sys2Proof.Machine

namespace Sys2Proof.Proofs

open Sys2Proof.Machine

/-- Settles O38: what an instruction does to the port is the same from every state with these parameters and queues. -/
theorem queuesAndCommandDetermineOutcome : Obligations.QueuesAndCommandDetermineOutcome := by
  unfold Obligations.QueuesAndCommandDetermineOutcome
  rintro i ⟨q, k, is, rs⟩ ⟨⟨out, inn, rx, tx⟩, k', is', rs'⟩ ⟨rfl, rfl, rfl, rfl, rfl⟩
  obtain ⟨q', r, h⟩ := exec_port i k q
  exact ⟨_, _, r.encode, h is rs, h is' rs', ⟨rfl, rfl, rfl, rfl, rfl⟩, rfl, rfl⟩

/-- Settles O45: the port carries the parameters and the queues to the block's step, and its answer back. -/
theorem blockStepTakesItsInputAsArgument : Obligations.BlockStepTakesItsInputAsArgument := by
  unfold Obligations.BlockStepTakesItsInputAsArgument
  refine ⟨?_, fun k q c e hd => blockStep_illegal hd k q, blockStep_reset, ?_⟩
  · intro k q c i hd
    obtain ⟨q', p, hb, he⟩ := blockStep_ok hd k q
    refine ⟨q', p, hb, ?_⟩
    rintro s rfl rfl
    exact he s.inputs s.responses
  · intro s x rest hs hi
    obtain ⟨q', ps, hb, -⟩ := blockStep_answers s.cfg x s.toQueues
    exact ⟨q', ps, hb, step_of_blockStep hs hi hb⟩

/-- Settles O40: by induction on the number of steps, and on the waiting inputs. -/
theorem runAnswersEveryCommand : Obligations.RunAnswersEveryCommand := by
  unfold Obligations.RunAnswersEveryCommand
  exact fun s hs => ⟨fun n => runsSafely_of_legal n hs, run_inputs hs rfl⟩

/-- Settles O12: the decoder's answer selects the case of the step. -/
theorem stepRunsDecodedCommand : Obligations.StepRunsDecodedCommand := by
  unfold Obligations.StepRunsDecodedCommand
  exact fun s c rest i hs hi hd => step_of_decode hs hi hd

/-- Settles O14: the two steps that take no input. -/
theorem stepWithoutCommand : Obligations.StepWithoutCommand := by
  unfold Obligations.StepWithoutCommand
  exact ⟨fun s hs hi => step_idle hs hi, fun s hs => if_neg hs⟩

/-- Settles O44: RESET puts empty queues in place and takes itself off the port. -/
theorem resetKeepsThePort : Obligations.ResetKeepsThePort := by
  unfold Obligations.ResetKeepsThePort
  exact fun s rest hs hi => step_reset hs hi

end Sys2Proof.Proofs
end

section
/-! Which ends of which queues a command writes (spec/10_state.md R34), and that the two paths share nothing (sections 1 and 6). -/

namespace Sys2Proof.Machine

/-! ### The ends that the shared operations write -/

theorem fifoWrite_appends (f : FifoConfig) (q : List Entry) (d : List Byte) : ∃ x, (fifoWrite f q d).q = q ++ x := by
  rcases fifoWrite_cases f q d with ⟨-, -, h⟩ | ⟨-, -, h⟩ | ⟨-, h⟩ <;> rw [h]
  · exact ⟨_, rfl⟩
  · exact ⟨[], (List.append_nil q).symm⟩
  · exact ⟨_, rfl⟩

theorem fifoRead_drops {f : FifoConfig} {q : List Entry} {l : Nat} {r : FifoData} (h : fifoRead f q l = some r) :
    ∃ k, r.q = q.drop k := by
  obtain ⟨-, -, hq | hq⟩ := fifoRead_splits h
  · exact ⟨(entriesOf r.data).length, by rw [hq, List.drop_left]⟩
  · refine ⟨(entriesOf r.data).length + 1, ?_⟩
    rw [hq, ← List.drop_drop, List.drop_left]
    rfl

/-- A pull takes from the head of OUT.q and appends to RX.q what there is room for (41_stream_buffer.md R141). -/
theorem rxPull_frame (s : State) :
    s.rxPull.inQ = s.inQ ∧ s.rxPull.txQ = s.txQ ∧ (∃ k, s.rxPull.outQ = s.outQ.drop k) ∧
      ∃ x, s.rxPull.rxQ = s.rxQ ++ x ∧ x.length ≤ s.rxFree := by
  rcases rxPull_moves s with ⟨-, h⟩ | ⟨r, hr, h, hl, -⟩ <;> rw [h]
  · exact ⟨rfl, rfl, ⟨0, rfl⟩, [], (List.append_nil _).symm, Nat.zero_le _⟩
  · exact ⟨rfl, rfl, fifoRead_drops hr, r.data, rfl, hl⟩

/-! ### One path alone -/

/-- A pull as a function of the parameters, OUT.q and RX.q, whatever the other path holds (41_stream_buffer.md R141). -/
theorem rxPull_receive (k : Config) (out : List Entry) (rx : List Byte) :
    ∃ out' rx', ∀ inn tx is rs, State.rxPull ⟨⟨out, inn, rx, tx⟩, k, is, rs⟩ = ⟨⟨out', inn, rx', tx⟩, k, is, rs⟩ := by
  cases h : fifoRead k.outF out (k.bRx - rx.length) with
  | none   => exact ⟨out, rx, fun _ _ _ _ => rxPull_of_none h⟩
  | some r => exact ⟨r.q, rx ++ r.data, fun _ _ _ _ => rxPull_of_read h⟩

/-- A command of the receive path as a function of the parameters, OUT.q and RX.q, whatever the other path and the port hold. -/
theorem exec_receive (k : Config) (out : List Entry) (rx : List Byte) {i : Instr}
    (hi : (∃ d, i = .pushOut d) ∨ (∃ n, i = .devRd n) ∨ ∃ n, i = .appRd n) :
    ∃ out' rx' r, ∀ inn tx is rs,
      exec i ⟨⟨out, inn, rx, tx⟩, k, is, rs⟩ = .next ⟨⟨out', inn, rx', tx⟩, k, is, rs ++ [Resp.encode r]⟩ := by
  rcases hi with ⟨d, rfl⟩ | ⟨n, rfl⟩ | ⟨n, rfl⟩
  · let w := fifoWrite k.outF out d
    exact ⟨w.q, rx, .ok w.accepted (zq := w.zq), fun _ _ _ _ => exec_pushOut d _⟩
  · cases h : fifoRead k.outF out n with
    | none   => exact ⟨_, _, _, fun _ _ _ _ => exec_devRd_of_empty ((fifoRead_eq_none ..).1 h) n⟩
    | some r => exact ⟨_, _, _, fun _ _ _ _ => exec_devRd_of_read h⟩
  · obtain ⟨out', rx', h⟩ := rxPull_receive k out rx
    by_cases hrx : rx' = []
    · refine ⟨out', rx', .wouldBlock, fun inn tx is rs => ?_⟩
      rw [exec_appRd_of_empty (by rw [h]; exact hrx), h]
      rfl
    · refine ⟨out', rx'.drop n, .ok (min n rx'.length) (rx'.take n), fun inn tx is rs => ?_⟩
      rw [exec_appRd_of_bytes (by rw [h]; exact hrx), h]
      rfl

/-- A command of the transmit path as a function of the parameters, IN.q and TX.q, whatever the other path and the port hold. -/
theorem exec_transmit (k : Config) (inn : List Entry) (tx : List Byte) {i : Instr}
    (hi : (∃ d, i = .devWr d) ∨ (∃ n, i = .pullIn n) ∨ (∃ d, i = .appWr d) ∨ i = .poll) :
    ∃ inn' tx' r, ∀ out rx is rs,
      exec i ⟨⟨out, inn, rx, tx⟩, k, is, rs⟩ = .next ⟨⟨out, inn', rx, tx'⟩, k, is, rs ++ [Resp.encode r]⟩ := by
  let u : State := State.around k ⟨[], inn, [], tx⟩
  rcases hi with ⟨d, rfl⟩ | ⟨n, rfl⟩ | ⟨d, rfl⟩ | rfl
  · let w := fifoWrite k.inF inn d
    exact ⟨w.q, tx, .ok w.accepted (zq := w.zq), fun _ _ _ _ => exec_devWr d _⟩
  · cases h : fifoRead k.inF inn n with
    | none   => exact ⟨_, _, _, fun _ _ _ _ => exec_pullIn_of_empty ((fifoRead_eq_none ..).1 h) n⟩
    | some r => exact ⟨_, _, _, fun _ _ _ _ => exec_pullIn_of_read h⟩
  · refine ⟨(u.txCopyIn d).txFlush.inQ, (u.txCopyIn d).txFlush.txQ, .ok (u.txAccepts d), fun out rx is rs => ?_⟩
    rw [exec_appWr, txFlush_moves, txFlush_moves]
    rfl
  · refine ⟨u.txFlush.inQ, u.txFlush.txQ, .ok u.txChunk, fun out rx is rs => ?_⟩
    rw [exec_poll, txFlush_moves, txFlush_moves]
    rfl

end Sys2Proof.Machine

namespace Sys2Proof.Proofs

open Sys2Proof.Machine

/-- Settles O31: a write appends, a read drops from the head, and the Stream Buffer commands are their steps one after another. -/
theorem commandsTouchOnlyTheirEnds : Obligations.CommandsTouchOnlyTheirEnds := by
  unfold Obligations.CommandsTouchOnlyTheirEnds
  constructor
  · intro i s t ht
    obtain ⟨t', p, ht', hcfg, hin, hresp⟩ := exec_answers i s
    cases ht.symm.trans ht'
    refine ⟨hcfg, hin, ⟨p, hresp⟩, ?_⟩
    cases i with
    | pushOut d =>
      cases ht.symm.trans (exec_pushOut d s)
      exact ⟨fifoWrite_appends .., rfl, rfl, rfl⟩
    | devWr d =>
      cases ht.symm.trans (exec_devWr d s)
      exact ⟨rfl, fifoWrite_appends .., rfl, rfl⟩
    | pullIn n =>
      by_cases hq : s.inQ = []
      · cases ht.symm.trans (exec_pullIn_of_empty hq n)
        exact ⟨rfl, ⟨0, rfl⟩, rfl, rfl⟩
      · obtain ⟨r, hr⟩ := exists_fifoRead_eq_some hq s.cfg.inF n
        cases ht.symm.trans (exec_pullIn_of_read hr)
        exact ⟨rfl, fifoRead_drops hr, rfl, rfl⟩
    | devRd n =>
      by_cases hq : s.outQ = []
      · cases ht.symm.trans (exec_devRd_of_empty hq n)
        exact ⟨⟨0, rfl⟩, rfl, rfl, rfl⟩
      · obtain ⟨r, hr⟩ := exists_fifoRead_eq_some hq s.cfg.outF n
        cases ht.symm.trans (exec_devRd_of_read hr)
        exact ⟨fifoRead_drops hr, rfl, rfl, rfl⟩
    | appWr d =>
      rw [exec_appWr, txFlush_moves] at ht
      cases ht
      exact ⟨rfl, rfl, rfl, rfl, rfl⟩
    | appRd n =>
      obtain ⟨hinQ, htxQ, hdrop, happend⟩ := rxPull_frame s
      by_cases hq : s.rxPull.rxQ = []
      · cases ht.symm.trans (exec_appRd_of_empty hq n)
        exact ⟨hinQ, htxQ, rfl, hdrop, happend, fun _ => hq, fun h => absurd hq h⟩
      · cases ht.symm.trans (exec_appRd_of_bytes hq n)
        exact ⟨hinQ, htxQ, rfl, hdrop, happend, fun h => absurd h hq, fun _ => ⟨List.drop_eq_drop_min, List.drop_eq_drop_min⟩⟩
    | poll =>
      rw [exec_poll, txFlush_moves] at ht
      cases ht
      exact ⟨rfl, rfl, rfl, rfl⟩
    | rdreg r =>
      cases ht.symm.trans (exec_rdreg r s)
      exact ⟨rfl, rfl, rfl, rfl⟩
  · intro s t c rest e hi hd ht
    have hs : s.cfg.legal := by
      by_contra hs
      rw [step, if_neg hs] at ht
      cases ht
    cases ht.symm.trans (step_of_decode_error hs hi hd)
    exact ⟨rfl, rfl, rfl, rfl, rfl⟩

/-- Settles O39: what a command of one path does is the same from every state with these parameters and the two queues of that
path. -/
theorem pathsDoNotInterfere : Obligations.PathsDoNotInterfere := by
  unfold Obligations.PathsDoNotInterfere
  rintro i ⟨⟨out, inn, rx, tx⟩, k, is, rs⟩ ⟨⟨out', inn', rx', tx'⟩, k', is', rs'⟩ s' u' p p' rfl hs hu hp hp'
  constructor
  · rintro hi rfl rfl
    obtain ⟨_, _, r, h⟩ := exec_receive k out rx hi
    cases hs.symm.trans (h ..)
    cases hu.symm.trans (h ..)
    have hpp : [p] = [p'] := (List.append_cancel_left hp).symm.trans (List.append_cancel_left hp')
    exact ⟨List.singleton_inj.1 hpp, rfl, rfl, rfl, rfl⟩
  · rintro hi rfl rfl
    obtain ⟨_, _, r, h⟩ := exec_transmit k inn tx hi
    cases hs.symm.trans (h ..)
    cases hu.symm.trans (h ..)
    have hpp : [p] = [p'] := (List.append_cancel_left hp).symm.trans (List.append_cancel_left hp')
    exact ⟨List.singleton_inj.1 hpp, rfl, rfl, rfl, rfl⟩

end Sys2Proof.Proofs
end

section
/-! The stream laws (spec/20_memory.md R62, R63): on each path no byte is lost, doubled or reordered. -/

namespace Sys2Proof.Machine

/-! ### What the shared operations do to the bytes of a queue -/

theorem bytesOf_fifoWrite (f : FifoConfig) (q : List Entry) (d : List Byte) :
    bytesOf (fifoWrite f q d).q = bytesOf q ++ d.take (fifoWrite f q d).accepted := by
  rcases fifoWrite_cases f q d with ⟨-, -, h⟩ | ⟨-, -, h⟩ | ⟨-, h⟩ <;> simp [h]

theorem bytesOf_fifoRead {f : FifoConfig} {q : List Entry} {l : Nat} {r : FifoData} (h : fifoRead f q l = some r) :
    r.data ++ bytesOf r.q = bytesOf q := by
  obtain ⟨-, -, hq | hq⟩ := fifoRead_splits h <;> rw [hq] <;> simp

/-- A pull moves bytes from the head of OUT.q to the tail of RX.q (41_stream_buffer.md R141). -/
theorem bytes_rxPull (s : State) : s.rxPull.rxQ ++ bytesOf s.rxPull.outQ = s.rxQ ++ bytesOf s.outQ := by
  rcases rxPull_moves s with ⟨-, h⟩ | ⟨r, hr, h, -⟩ <;> rw [h]
  simp [← bytesOf_fifoRead hr]

/-- A flush moves bytes from the head of TX.q to the tail of IN.q (41_stream_buffer.md R142). -/
theorem bytes_txFlush (s : State) : bytesOf s.txFlush.inQ ++ s.txFlush.txQ = bytesOf s.inQ ++ s.txQ := by
  simp [txFlush_moves]

/-! ### What the port sees of an answer -/

theorem valField_encode_ok {v : Nat} (hv : v ≤ maxLength) (d : List Byte) (t : Term) (z : Bool) :
    (Resp.ok v d t z).encode.valField = v := by
  obtain ⟨-, -, -, -, hval⟩ := encode_fields (r := .ok v d t z) hv
  exact hval

@[simp] theorem data_ok (v : Nat) (d : List Byte) (t : Term) (z : Bool) : (Resp.ok v d t z).data = d := rfl

@[simp] theorem data_wouldBlock : Resp.wouldBlock.data = [] := rfl

/-! ### A path and its balance -/

/-- One of the two paths: the bytes it holds, in the order in which they are to be returned, and what a command returned of them
and accepted onto them (20_memory.md R62, R63). -/
structure Path where
  bytes    : State → List Byte
  returned : Command × Response → List Byte
  accepted : Command × Response → List Byte

/-- OUT.q behind RX.q. -/
def receivePath : Path where
  bytes s  := s.rxQ ++ bytesOf s.outQ
  returned := returnedOut
  accepted := acceptedOut

/-- TX.q behind IN.q. -/
def transmitPath : Path where
  bytes s  := bytesOf s.inQ ++ s.txQ
  returned := returnedIn
  accepted := acceptedIn

/-- What a command returned and accepted accounts for what became of the path's bytes. -/
def Path.balanced (P : Path) (s t : State) (x : Command × Response) : Prop :=
  P.returned x ++ P.bytes t = P.bytes s ++ P.accepted x

/-- A command that neither returns nor accepts and leaves the path's bytes is in balance. -/
theorem Path.balanced_of_idle {P : Path} {s t : State} {x : Command × Response}
    (hx : P.returned x = [] ∧ P.accepted x = []) (h : P.bytes t = P.bytes s) : P.balanced s t x := by
  obtain ⟨hr, ha⟩ := hx
  rw [Path.balanced, hr, ha, h, List.nil_append, List.append_nil]

/-! ### One command on the receive path -/

/-- An instruction keeps the balance of the receive path, unless it is a DEV_RD that overtakes RX.q (20_memory.md R63). -/
theorem exec_receive_balanced {s t : State} {c : Command} {i : Instr} {p : Response} (hs : s.Inv) (hd : decode c = .ok i)
    (ht : exec i s = .next t) (hp : t.responses = s.responses ++ [p]) (horder : ∀ l, i = .devRd l → s.rxQ = []) :
    receivePath.balanced s t (c, p) := by
  cases i with
  | pushOut d =>
    cases ht.symm.trans (exec_pushOut d s)
    have hval : p.valField = (fifoWrite s.cfg.outF s.outQ d).accepted := by
      rw [eq_encode_of_respond rfl hp]
      exact valField_encode_ok ((fifoWrite_accepted_le ..).trans (capacityFor_le hs.1 (.pushOut d))) ..
    simp [Path.balanced, receivePath, returnedOut, acceptedOut, hd, hval, bytesOf_fifoWrite]
  | devRd n =>
    by_cases hq : s.outQ = []
    · cases ht.symm.trans (exec_devRd_of_empty hq n)
      obtain rfl := eq_encode_of_respond rfl hp
      exact Path.balanced_of_idle (by simp [receivePath, returnedOut, acceptedOut, hd]) rfl
    · obtain ⟨r, hr⟩ := exists_fifoRead_eq_some hq s.cfg.outF n
      cases ht.symm.trans (exec_devRd_of_read hr)
      obtain rfl := eq_encode_of_respond rfl hp
      simp [Path.balanced, receivePath, returnedOut, acceptedOut, hd, horder n rfl, bytesOf_fifoRead hr]
  | appRd n =>
    by_cases hq : s.rxPull.rxQ = []
    · cases ht.symm.trans (exec_appRd_of_empty hq n)
      obtain rfl := eq_encode_of_respond (rxPull_responses s) hp
      exact Path.balanced_of_idle (by simp [receivePath, returnedOut, acceptedOut, hd]) (bytes_rxPull s)
    · cases ht.symm.trans (exec_appRd_of_bytes hq n)
      obtain rfl := eq_encode_of_respond (rxPull_responses s) hp
      simp [Path.balanced, receivePath, returnedOut, acceptedOut, hd, ← bytes_rxPull s, ← List.append_assoc]
  | pullIn n | devWr d | rdreg r =>
    obtain ⟨-, -, -, hout, -, hrx, -⟩ := Proofs.commandsTouchOnlyTheirEnds.1 _ s t ht
    exact Path.balanced_of_idle (by simp [receivePath, returnedOut, acceptedOut, hd]) (by simp only [receivePath, hrx, hout])
  | appWr d | poll =>
    obtain ⟨-, -, -, hout, hrx, -⟩ := Proofs.commandsTouchOnlyTheirEnds.1 _ s t ht
    exact Path.balanced_of_idle (by simp [receivePath, returnedOut, acceptedOut, hd]) (by simp only [receivePath, hrx, hout])

/-! ### One command on the transmit path -/

/-- An instruction keeps the balance of the transmit path, unless it is a DEV_WR that overtakes TX.q (20_memory.md R63). -/
theorem exec_transmit_balanced {s t : State} {c : Command} {i : Instr} {p : Response} (hs : s.Inv) (hd : decode c = .ok i)
    (ht : exec i s = .next t) (hp : t.responses = s.responses ++ [p]) (horder : ∀ d, i = .devWr d → s.txQ = []) :
    transmitPath.balanced s t (c, p) := by
  cases i with
  | devWr d =>
    cases ht.symm.trans (exec_devWr d s)
    have hval : p.valField = (fifoWrite s.cfg.inF s.inQ d).accepted := by
      rw [eq_encode_of_respond rfl hp]
      exact valField_encode_ok ((fifoWrite_accepted_le ..).trans (capacityFor_le hs.1 (.devWr d))) ..
    simp [Path.balanced, transmitPath, returnedIn, acceptedIn, hd, hval, horder d rfl, bytesOf_fifoWrite]
  | appWr d =>
    cases ht.symm.trans (exec_appWr d s)
    have hval : p.valField = s.txAccepts d := by
      rw [eq_encode_of_respond (s := s) (u := (s.txCopyIn d).txFlush) (txFlush_responses _) hp]
      exact valField_encode_ok ((Nat.min_le_right ..).trans ((Nat.sub_le ..).trans (capacityFor_le hs.1 (.appWr d)))) ..
    simp [Path.balanced, transmitPath, returnedIn, acceptedIn, hd, hval, bytes_txFlush, State.txCopyIn]
  | pullIn n =>
    by_cases hq : s.inQ = []
    · cases ht.symm.trans (exec_pullIn_of_empty hq n)
      obtain rfl := eq_encode_of_respond rfl hp
      exact Path.balanced_of_idle (by simp [transmitPath, returnedIn, acceptedIn, hd]) rfl
    · obtain ⟨r, hr⟩ := exists_fifoRead_eq_some hq s.cfg.inF n
      cases ht.symm.trans (exec_pullIn_of_read hr)
      obtain rfl := eq_encode_of_respond rfl hp
      simp [Path.balanced, transmitPath, returnedIn, acceptedIn, hd, ← bytesOf_fifoRead hr]
  | poll =>
    cases ht.symm.trans (exec_poll s)
    exact Path.balanced_of_idle (by simp [transmitPath, returnedIn, acceptedIn, hd]) (bytes_txFlush s)
  | pushOut d =>
    obtain ⟨-, -, -, -, hin, -, htx⟩ := Proofs.commandsTouchOnlyTheirEnds.1 _ s t ht
    exact Path.balanced_of_idle (by simp [transmitPath, returnedIn, acceptedIn, hd]) (by simp only [transmitPath, htx, hin])
  | devRd n | rdreg r =>
    obtain ⟨-, -, -, -, hin, -, htx⟩ := Proofs.commandsTouchOnlyTheirEnds.1 _ s t ht
    exact Path.balanced_of_idle (by simp [transmitPath, returnedIn, acceptedIn, hd]) (by simp only [transmitPath, htx, hin])
  | appRd n =>
    obtain ⟨-, -, -, hin, htx, -⟩ := Proofs.commandsTouchOnlyTheirEnds.1 _ s t ht
    exact Path.balanced_of_idle (by simp [transmitPath, returnedIn, acceptedIn, hd]) (by simp only [transmitPath, htx, hin])

/-! ### A step, and a run of commands -/

/-- The command is no DEV_RD that overtakes bytes in RX.q (20_memory.md R63). -/
def receiveMayTake (s : State) (c : Command) : Prop := ∀ l, decode c = .ok (.devRd l) → s.rxQ = []

/-- The command is no DEV_WR that overtakes bytes in TX.q (20_memory.md R63). -/
def transmitMayTake (s : State) (c : Command) : Prop := ∀ d, decode c = .ok (.devWr d) → s.txQ = []

theorem step_receive_balanced {s t : State} {c : Command} {rest : List Input} {p : Response} (hs : s.Inv)
    (hi : s.inputs = .command c :: rest) (ht : step s = .next t) (hp : t.responses = s.responses ++ [p])
    (horder : receiveMayTake s c) : receivePath.balanced s t (c, p) := by
  rcases step_command hs.1 hi with ⟨i, hd, h⟩ | ⟨e, hd, h⟩ <;> rw [h] at ht
  · exact exec_receive_balanced (s := s.setInputs rest) hs hd ht hp fun l hl => horder l (hl ▸ hd)
  · cases ht
    exact Path.balanced_of_idle (by simp [receivePath, returnedOut, acceptedOut, hd]) rfl

theorem step_transmit_balanced {s t : State} {c : Command} {rest : List Input} {p : Response} (hs : s.Inv)
    (hi : s.inputs = .command c :: rest) (ht : step s = .next t) (hp : t.responses = s.responses ++ [p])
    (horder : transmitMayTake s c) : transmitPath.balanced s t (c, p) := by
  rcases step_command hs.1 hi with ⟨i, hd, h⟩ | ⟨e, hd, h⟩ <;> rw [h] at ht
  · exact exec_transmit_balanced (s := s.setInputs rest) hs hd ht hp fun d hl => horder d (hl ▸ hd)
  · cases ht
    exact Path.balanced_of_idle (by simp [transmitPath, returnedIn, acceptedIn, hd]) rfl

/-- In the first `k` steps of the run from `s` a command is taken only where it may be (20_memory.md R63). -/
def State.takesInOrder (s : State) (may : State → Command → Prop) (k : Nat) : Prop :=
  ∀ n u c rest, n < k → Host.Core.run core n s = .next u → u.inputs = .command c :: rest → may u c

/-- When every step that takes a command where it may be taken is in balance, so is a run of such commands. -/
theorem Path.run_balanced {P : Path} {may : State → Command → Prop}
    (hstep : ∀ {s t : State} {c : Command} {rest : List Input} {p : Response}, s.Inv → s.inputs = .command c :: rest →
      step s = .next t → t.responses = s.responses ++ [p] → may s c → P.balanced s t (c, p))
    {cmds : List Command} {s : State} {later : List Input} (hs : s.Inv) (hi : s.inputs = cmds.map .command ++ later)
    (horder : s.takesInOrder may cmds.length) :
    ∃ (t : State) (ps : List Response), Host.Core.run core cmds.length s = .next t ∧ t.inputs = later ∧
      t.responses = s.responses ++ ps ∧ ps.length = cmds.length ∧
      (cmds.zip ps).flatMap P.returned ++ P.bytes t = P.bytes s ++ (cmds.zip ps).flatMap P.accepted := by
  induction cmds generalizing s with
  | nil => exact ⟨s, [], rfl, hi, (List.append_nil _).symm, rfl, (List.append_nil _).symm⟩
  | cons c cmds ih =>
    obtain ⟨t, p, ht, htin, hp, -⟩ := Proofs.everyCommandIsAnsweredOnce s c _ hs hi
    have hfirst : P.returned (c, p) ++ P.bytes t = P.bytes s ++ P.accepted (c, p) :=
      hstep hs hi ht hp (horder 0 s c _ (Nat.succ_pos _) rfl hi)
    have htorder : t.takesInOrder may cmds.length := fun n u c' rest hn hu =>
      horder (n + 1) u c' rest (Nat.succ_lt_succ hn) ((run_succ ht).trans hu)
    obtain ⟨u, ps, hu, huin, hps, hlen, hrest⟩ := ih (step_of_inv hs ht).1 htin htorder
    refine ⟨u, p :: ps, (run_succ ht).trans hu, huin, ?_, congrArg (· + 1) hlen, ?_⟩
    · rw [hps, hp, List.append_assoc, List.singleton_append]
    · simp only [List.zip_cons_cons, List.flatMap_cons]
      rw [List.append_assoc, hrest, ← List.append_assoc, hfirst, List.append_assoc]

end Sys2Proof.Machine

namespace Sys2Proof.Proofs

open Sys2Proof.Machine

/-- Settles O41: every step balances the receive path, as long as no DEV_RD overtakes RX.q. -/
theorem receiveStreamLaw : Obligations.ReceiveStreamLaw := by
  unfold Obligations.ReceiveStreamLaw
  intro s cmds later hs hi horder
  have horder' : s.takesInOrder receiveMayTake cmds.length :=
    fun n u c rest hn hu hc l => horder n u c rest l hn hu hc
  obtain ⟨t, ps, ht, htin, hps, hlen, hbal⟩ := receivePath.run_balanced step_receive_balanced hs hi horder'
  exact ⟨t, ps, ht, htin, hps, hlen, (List.append_assoc ..).trans hbal⟩

/-- Settles O42: every step balances the transmit path, as long as no DEV_WR overtakes TX.q. -/
theorem transmitStreamLaw : Obligations.TransmitStreamLaw := by
  unfold Obligations.TransmitStreamLaw
  intro s cmds later hs hi horder
  have horder' : s.takesInOrder transmitMayTake cmds.length :=
    fun n u c rest hn hu hc d => horder n u c rest d hn hu hc
  obtain ⟨t, ps, ht, htin, hps, hlen, hbal⟩ := transmitPath.run_balanced step_transmit_balanced hs hi horder'
  exact ⟨t, ps, ht, htin, hps, hlen, (List.append_assoc ..).trans hbal⟩

end Sys2Proof.Proofs
end

section
/-! Enough polls bring all of TX.q into an IN FIFO with room for it (spec/41_stream_buffer.md R142, R152). -/

namespace Sys2Proof.Machine

open Statements

/-- With room in the IN FIFO for all of TX.q the chunk is a packet, or the rest where that is less (R142). -/
theorem txChunk_of_room {s : State} (h : resident s.inQ + s.txQ.length ≤ s.cfg.inF.c) :
    s.txChunk = min s.cfg.inF.m s.txQ.length := by
  rw [State.txChunk, fifoFree]
  omega

/-- A step on POLL with such room moves that chunk from the head of TX.q to the tail of IN.q and nothing else (R147). -/
theorem step_poll_of_room {s : State} {rest : List Input} {k : Nat} (hs : s.cfg.legal) (hi : s.inputs = pollInput :: rest)
    (hroom : resident s.inQ + s.txQ.length ≤ s.cfg.inF.c) (hk : k = min s.cfg.inF.m s.txQ.length) :
    ∃ t, step s = .next t ∧ t.inQ = s.inQ ++ entriesOf (s.txQ.take k) ∧ t.txQ = s.txQ.drop k ∧ t.outQ = s.outQ ∧
      t.rxQ = s.rxQ ∧ t.cfg = s.cfg ∧ t.inputs = rest := by
  have hchunk : (s.setInputs rest).txChunk = k := (txChunk_of_room hroom).trans hk.symm
  refine ⟨_, step_of_decode hs hi (decode_word (i := .poll) (op := 7) rfl rfl), ?_⟩
  rw [txFlush_moves, hchunk]
  exact ⟨rfl, rfl, rfl, rfl, rfl, rfl⟩

/-- By induction on the polls: each moves a packet, or all that is left. -/
theorem run_polls {n : Nat} {s : State} {later : List Input} (hs : s.cfg.legal)
    (hi : s.inputs = List.replicate n pollInput ++ later) (hlen : s.txQ.length ≤ n * s.cfg.inF.m)
    (hroom : resident s.inQ + s.txQ.length ≤ s.cfg.inF.c) :
    ∃ t : State, Host.Core.run core n s = .next t ∧ t.txQ = [] ∧ t.inQ = s.inQ ++ entriesOf s.txQ ∧ t.outQ = s.outQ ∧
      t.rxQ = s.rxQ ∧ t.cfg = s.cfg ∧ t.inputs = later := by
  induction n generalizing s with
  | zero =>
    have htx : s.txQ = [] := List.length_eq_zero_iff.1 (by omega)
    exact ⟨s, rfl, htx, by rw [htx, entriesOf_nil, List.append_nil], rfl, rfl, rfl, hi⟩
  | succ n ih =>
    obtain ⟨k, hk⟩ : ∃ k, k = min s.cfg.inF.m s.txQ.length := ⟨_, rfl⟩
    obtain ⟨t, ht, htin, httx, htout, htrx, htcfg, htinputs⟩ := step_poll_of_room hs hi hroom hk
    have hleft : t.txQ.length ≤ n * t.cfg.inF.m := by
      rw [Nat.succ_mul] at hlen
      rw [httx, htcfg, List.length_drop]
      omega
    have hfits : resident t.inQ + t.txQ.length ≤ t.cfg.inF.c := by
      rw [htin, httx, htcfg, resident_append, resident_entriesOf, List.length_take, List.length_drop]
      omega
    obtain ⟨u, hu, hutx, huin, huout, hurx, hucfg, huinputs⟩ := ih (htcfg ▸ hs) htinputs hleft hfits
    refine ⟨u, (run_succ ht).trans hu, hutx, ?_, huout.trans htout, hurx.trans htrx, hucfg.trans htcfg, huinputs⟩
    rw [huin, htin, httx, List.append_assoc, ← entriesOf_append, List.take_append_drop]

end Sys2Proof.Machine

namespace Sys2Proof.Proofs

open Sys2Proof.Machine

/-- Settles O43: each poll takes a packet off TX.q, so `n` polls take `n * M_IN` bytes. -/
theorem pollsDrainTheTransmitBuffer : Obligations.PollsDrainTheTransmitBuffer := by
  unfold Obligations.PollsDrainTheTransmitBuffer
  exact fun s n later hs hi hlen hroom => run_polls hs hi hlen hroom

end Sys2Proof.Proofs
end

section
/-! The registers agree with each other (spec/42_status_access.md R172, 10_state.md R30). -/

namespace Sys2Proof.Machine

/-- The bits of the FLAGS register are those that `flagBits` lists (10_state.md R30). -/
theorem testBit_regRead_flags (s : State) {k : Nat} (hk : k < 8) :
    (regRead s .flags).testBit k = (flagBits s).getD k false := by
  rw [← getElem_flags s hk, ← BitVec.getLsbD_eq_getElem, regRead, BitVec.testBit_toNat]

/-- A FIFO is empty when it holds neither a byte nor a marker (10_state.md R22). -/
theorem eq_nil_iff_counts (q : List Entry) : q = [] ↔ resident q = 0 ∧ zlps q = 0 := by
  rw [← List.length_eq_zero_iff, length_eq_resident_add_zlps, Nat.add_eq_zero_iff]

/-- No queue shows empty and full at once, since every capacity of a legal block is at least 1 (42_status_access.md R172). -/
theorem not_empty_and_full {s : State} (hs : s.cfg.legal) {k : Nat} (hk : k < 4) :
    ¬ ((flagBits s).getD (2 * k) false = true ∧ (flagBits s).getD (2 * k + 1) false = true) := by
  obtain ⟨⟨-, ⟨hOut, -⟩, -⟩, ⟨-, ⟨hIn, -⟩, -⟩, ⟨hRx, -⟩, ⟨hTx, -⟩⟩ := hs
  rintro ⟨hempty, hfull⟩
  match k with
  | 0 | 1 | 2 | 3 =>
    have hnil := of_decide_eq_true hempty
    have hcap := of_decide_eq_true hfull
    rw [hnil] at hcap
    change 0 = _ at hcap
    omega

end Sys2Proof.Machine

namespace Sys2Proof.Proofs

open Sys2Proof.Machine

/-- Settles O30: the count registers read what the invariant bounds, and FLAGS what `flagBits` says of it. -/
theorem registersAgreeWithEachOther : Obligations.RegistersAgreeWithEachOther := by
  unfold Obligations.RegistersAgreeWithEachOther
  intro s hs
  have ⟨hcfg, ⟨hro, hzo⟩, ⟨hri, hzi⟩, hrx, htx⟩ := hs
  have hbit (k : Nat) (hk : k < 8) : (regRead s .flags).testBit k = true ↔ (flagBits s).getD k false = true := by
    rw [testBit_regRead_flags s hk]
  refine ⟨hro, hzo, hri, hzi, hrx, htx,
    (hbit 0 (by decide)).trans (decide_eq_true_iff.trans (eq_nil_iff_counts _)),
    (hbit 1 (by decide)).trans decide_eq_true_iff,
    (hbit 2 (by decide)).trans (decide_eq_true_iff.trans (eq_nil_iff_counts _)),
    (hbit 3 (by decide)).trans decide_eq_true_iff,
    (hbit 4 (by decide)).trans (decide_eq_true_iff.trans List.length_eq_zero_iff.symm),
    (hbit 5 (by decide)).trans decide_eq_true_iff,
    (hbit 6 (by decide)).trans (decide_eq_true_iff.trans List.length_eq_zero_iff.symm),
    (hbit 7 (by decide)).trans decide_eq_true_iff, ?_, regRead_le hs⟩
  intro k hk
  rw [hbit _ (by omega), hbit _ (by omega)]
  exact not_empty_and_full hcfg hk

end Sys2Proof.Proofs
end

section
/-! The closed form of an aggregating read and the bound of its loop (spec/40_endpoint_fifo.md R106, R107). -/

namespace Sys2Proof.Machine

open Statements

/-- What a read of `l` bytes returns of a queue that is the run `p` and then `rest` (R106): the length is used up inside the run or
on a packet border; or the run ends in a short packet; or it ends in a full one and the next entry, if any, is a marker, which
counts as a short packet of no bytes. -/
def readOfRun (m : Nat) (p : List Byte) (rest : List Entry) (l : Nat) : FifoData :=
  if l < p.length ∨ l = p.length ∧ l % m = 0 then
    { data := p.take l, term := .length, q := entriesOf (p.drop l) ++ rest }
  else if p.length % m ≠ 0 then { data := p, term := .short, q := rest }
  else if rest = [] then { data := p, term := .drained, q := [] }
  else { data := p, term := .short, q := rest.drop 1 }

/-- The read ends when the length is used up. -/
theorem readOfRun_used {m : Nat} {p : List Byte} (rest : List Entry) {l : Nat}
    (h : l < p.length ∨ l = p.length ∧ l % m = 0) :
    readOfRun m p rest l = { data := p.take l, term := .length, q := entriesOf (p.drop l) ++ rest } := if_pos h

/-- The read ends with the short packet at the end of the run. -/
theorem readOfRun_short {m : Nat} {p : List Byte} (rest : List Entry) {l : Nat} (hl : p.length ≤ l) (hm : p.length % m ≠ 0) :
    readOfRun m p rest l = { data := p, term := .short, q := rest } := by
  have hused : ¬ (l < p.length ∨ l = p.length ∧ l % m = 0) := by
    rintro (h | ⟨rfl, h⟩)
    · omega
    · exact hm h
  rw [readOfRun, if_neg hused, if_pos hm]

/-- The read ends behind the full packets that the run is made of. -/
theorem readOfRun_whole {m : Nat} {p : List Byte} (rest : List Entry) {l : Nat} (hl : p.length < l) (hm : p.length % m = 0) :
    readOfRun m p rest l =
      if rest = [] then { data := p, term := .drained, q := [] } else { data := p, term := .short, q := rest.drop 1 } := by
  rw [readOfRun, if_neg (by omega), if_neg (not_not_intro hm)]

/-- The data are as much of the run as the length covers. -/
theorem readOfRun_data (m : Nat) (p : List Byte) (rest : List Entry) (l : Nat) : (readOfRun m p rest l).data = p.take l := by
  by_cases hused : l < p.length ∨ l = p.length ∧ l % m = 0
  · rw [readOfRun_used rest hused]
  · have hall : p.take l = p := List.take_of_length_le (by omega)
    rw [hall, readOfRun, if_neg hused]
    split
    · rfl
    · split <;> rfl

/-- After a full packet with length left, the read goes on with what is left of the run. -/
theorem readOfRun_full {m : Nat} {p : List Byte} {rest : List Entry} {l : Nat} (hp : m ≤ p.length) (hl : m < l) :
    readOfRun m p rest l =
      { readOfRun m (p.drop m) rest (l - m) with
        data := p.take m ++ (readOfRun m (p.drop m) rest (l - m)).data } := by
  have hused : (l < p.length ∨ l = p.length ∧ l % m = 0) ↔
      (l - m < p.length - m ∨ l - m = p.length - m ∧ (l - m) % m = 0) := by
    rw [← Nat.mod_eq_sub_mod hl.le]
    omega
  have htake : p.take m ++ (p.drop m).take (l - m) = p.take l := by
    rw [← List.take_add, Nat.add_sub_cancel' hl.le]
  have hdrop : (p.drop m).drop (l - m) = p.drop l := by rw [List.drop_drop, Nat.add_sub_cancel' hl.le]
  have hall : p.take m ++ p.drop m = p := List.take_append_drop m p
  have hmod : (p.length - m) % m = p.length % m := (Nat.mod_eq_sub_mod hp).symm
  simp only [readOfRun, List.length_drop, hused, hmod]
  split
  · simp only [htake, hdrop]
  · split
    · simp only [hall]
    · split <;> simp only [hall]

/-- The loop of a read with enough rounds returns the closed form behind what was read before (R106, R107). -/
theorem readLoop_eq_readOfRun {f : FifoConfig} {n : Nat} {p : List Byte} {rest : List Entry} {room : Nat} (acc : List Byte)
    (hrest : endsRun rest) (hroom : 1 ≤ room) (hn : min p.length room < n * f.m) :
    readLoop f n (entriesOf p ++ rest) room acc =
      { readOfRun f.m p rest room with data := acc ++ (readOfRun f.m p rest room).data } := by
  induction n generalizing p room acc with
  | zero => omega
  | succ n ih =>
    rw [Nat.succ_mul] at hn
    by_cases hp : p = []
    · have hwhole := readOfRun_whole (m := f.m) (p := []) rest hroom (Nat.zero_mod _)
      obtain rfl | ⟨q, rfl⟩ := hrest
      · rw [hp, hwhole, if_pos rfl]
        simp [readLoop_nil]
      · have hpull : pullPacket f (.zlp :: q) room = .short [] false q := rfl
        rw [hp, hwhole, if_neg (List.cons_ne_nil _ _)]
        simp [readLoop_short n acc hpull]
    have hlen : 1 ≤ p.length := List.length_pos_iff.2 hp
    by_cases hfull : f.m ≤ p.length ∧ f.m ≤ room
    · obtain ⟨hmp, hmr⟩ := hfull
      have htake : (p.take f.m).length = f.m := List.length_take_of_le hmp
      rw [readLoop_full n acc (pullPacket_full hp hrest hmp hmr), htake]
      by_cases hlast : room = f.m
      · have hused : room < p.length ∨ room = p.length ∧ room % f.m = 0 := by
          rw [hlast, Nat.mod_self]
          omega
        rw [if_pos (by omega), readOfRun_used rest hused, hlast]
      · have hn' : min (p.drop f.m).length (room - f.m) < n * f.m := by
          rw [List.length_drop]
          omega
        rw [if_neg (by omega), ih _ (by omega) hn', readOfRun_full hmp (by omega)]
        simp only [List.append_assoc]
    · by_cases hcut : room < p.length
      · rw [readLoop_short n acc (pullPacket_cut hp hrest hcut (by omega)), readOfRun_used rest (.inl hcut)]
        rfl
      · have hshort : p.length < f.m := by omega
        have hmod : p.length % f.m ≠ 0 := by
          rw [Nat.mod_eq_of_lt hshort]
          exact Nat.ne_of_gt hlen
        rw [readLoop_short n acc (pullPacket_short hp hrest (by omega) hshort), readOfRun_short rest (by omega) hmod]
        rfl

theorem run_of_split {p : List Byte} {rest : List Entry} (h : endsRun rest) : run (entriesOf p ++ rest) = p.length := by
  rw [run_entriesOf_append, run_of_endsRun h, Nat.add_zero]

/-- A read that does not block returns the closed form (R106). -/
theorem fifoRead_eq_readOfRun {f : FifoConfig} {p : List Byte} {rest : List Entry} {l : Nat} (hm : 1 ≤ f.m)
    (hrest : endsRun rest) (hq : entriesOf p ++ rest ≠ []) (hl : 1 ≤ l) :
    fifoRead f (entriesOf p ++ rest) l = some (readOfRun f.m p rest l) := by
  have hn : min p.length l < (l / f.m + 1) * f.m :=
    (Nat.min_le_right ..).trans_lt (Nat.lt_mul_of_div_lt (Nat.lt_succ_self _) hm)
  rw [fifoRead_eq_readLoop hq hl, readLoop_eq_readOfRun [] hrest hl hn]
  rfl

end Sys2Proof.Machine

namespace Sys2Proof.Proofs

open Sys2Proof.Machine

/-- Settles O18: the closed form by the run that the queue begins with. -/
theorem fifoReadClosedForm : Obligations.FifoReadClosedForm := by
  unfold Obligations.FifoReadClosedForm
  intro f q l hm hq hl
  obtain ⟨p, rest, rfl, -, hrest⟩ := queue_split q
  have hT : min p.length l ≤ (entriesOf p).length := by
    rw [entriesOf_length]
    exact Nat.min_le_left ..
  have htake : bytesOf ((entriesOf p ++ rest).take (min p.length l)) = p.take l := by
    rw [List.take_append_of_le_length hT, entriesOf_take, bytesOf_entriesOf, Nat.min_comm, ← List.take_eq_take_min]
  have hdrop : (entriesOf p ++ rest).drop p.length = rest := List.drop_left' (entriesOf_length p)
  rw [run_of_split hrest]
  constructor
  · intro hp
    obtain rfl := List.length_eq_zero_iff.1 hp
    obtain rfl | ⟨q, rfl⟩ := hrest
    · exact absurd rfl hq
    · exact fifoRead_zlp f q hl
  · intro _
    refine ⟨_, fifoRead_eq_readOfRun hm hrest hq hl, ?_, ?_, ?_, ?_, ?_⟩
    · rw [readOfRun_data, htake]
    · rw [readOfRun_data, List.length_take, Nat.min_comm]
    · rintro ⟨hall, hmod⟩
      rw [hall] at hmod ⊢
      rw [readOfRun_short rest (by omega) hmod, hdrop]
      exact ⟨rfl, rfl⟩
    · rintro ⟨hall, hmod⟩
      rw [hall] at hmod hT ⊢
      rw [readOfRun_used rest (by omega), List.drop_append_of_le_length hT, entriesOf_drop]
      exact ⟨rfl, rfl⟩
    · rintro ⟨hlt, hmod⟩
      rw [readOfRun_whole rest hlt hmod, ← List.drop_drop, hdrop]
      exact ⟨fun h => by rw [if_pos h]; exact ⟨rfl, rfl⟩, fun h => by rw [if_neg h]; exact ⟨rfl, rfl⟩⟩

/-- Settles O19: with either number of rounds the loop returns the closed form. -/
theorem readLoopIsBounded : Obligations.ReadLoopIsBounded := by
  unfold Obligations.ReadLoopIsBounded
  intro f q room n acc hm hroom hn
  obtain ⟨p, rest, rfl, -, hrest⟩ := queue_split q
  rw [run_of_split hrest] at hn
  have henough : min p.length room < n * f.m := Nat.lt_mul_of_div_lt hn hm
  have hmodel : min p.length room < (room / f.m + 1) * f.m :=
    (Nat.min_le_right ..).trans_lt (Nat.lt_mul_of_div_lt (Nat.lt_succ_self _) hm)
  rw [readLoop_eq_readOfRun acc hrest hroom henough, readLoop_eq_readOfRun acc hrest hroom hmodel]

end Sys2Proof.Proofs
end

section
/-! What is printed in the textual form parses back (spec/30_encoding.md R83). -/

namespace Sys2Proof.Text

/-! ### Byte sequences -/

/-- A list of bytes parses back from behind its opening bracket. -/
theorem parseItems_printItems (b : Byte) (d : List Byte) (ts : List Token) :
    parseItems (printItems (b :: d) ++ ts) = some (b :: d, ts) := by
  have hb (b : Byte) : b.toNat < 256 := b.isLt
  induction d generalizing b with
  | nil => simp [printItems, parseItems, hb]
  | cons c d ih =>
    have hprint : printItems (b :: c :: d) = .num b.toNat :: .comma :: printItems (c :: d) := rfl
    simp [hprint, parseItems, ih, hb]

/-- A printed list that is not empty begins with a number. -/
theorem printItems_cons (b : Byte) (d : List Byte) : ∃ ts, printItems (b :: d) = .num b.toNat :: ts := by
  cases d <;> exact ⟨_, rfl⟩

theorem parseBytes_printBytes (d : List Byte) (ts : List Token) : parseBytes (printBytes d ++ ts) = some (d, ts) := by
  cases d with
  | nil => rfl
  | cons b d =>
    obtain ⟨us, hus⟩ := printItems_cons b d
    have hitems := parseItems_printItems b d ts
    rw [hus, List.cons_append] at hitems
    rw [printBytes, hus]
    exact hitems

/-! ### Commands -/

theorem parseWrite_printBytes (op : Nat) {d : List Byte} (hd : d.length ≤ maxLength) :
    parseWrite op (printBytes d) = some ⟨commandWord op d.length, d⟩ := by
  have h := parseBytes_printBytes d []
  rw [List.append_nil] at h
  simp only [parseWrite, h, if_pos hd]

theorem parseNumber_num (op : Nat) {n : Nat} (hn : n ≤ maxLength) : parseNumber op [.num n] = some ⟨commandWord op n, []⟩ :=
  if_pos hn

theorem parseCommand_printInstr {i : Instr} (hi : i.wellFormed = true) : parseCommand (printInstr i) = some (encode i) := by
  have harg := arg_le hi
  cases i with
  | pushOut d => exact parseWrite_printBytes 0x1 harg
  | devWr d   => exact parseWrite_printBytes 0x4 harg
  | appWr d   => exact parseWrite_printBytes 0x5 harg
  | pullIn n  => exact parseNumber_num 0x2 harg
  | devRd n   => exact parseNumber_num 0x3 harg
  | appRd n   => exact parseNumber_num 0x6 harg
  | poll      => rfl
  | rdreg r   => rfl

/-! ### Responses -/

theorem parseData_printData (d : List Byte) : parseData (printData d) = some (d, []) := by
  by_cases hd : d = []
  · rw [hd]
    rfl
  · rw [printData, if_neg hd]
    exact (congrArg parseBytes (List.append_nil _)).symm.trans (parseBytes_printBytes d [])

/-- Printed data are left out or begin with their keyword. -/
theorem printData_cases (d : List Byte) : printData d = [] ∨ ∃ ts, printData d = .word .data :: ts := by
  by_cases hd : d = []
  · exact .inl (if_pos hd)
  · exact .inr ⟨_, if_neg hd⟩

theorem parseZq_printZq (z : Bool) (d : List Byte) : parseZq (printZq z ++ printData d) = some (z, printData d) := by
  cases z with
  | true => rfl
  | false => obtain h | ⟨ts, h⟩ := printData_cases d <;> rw [h] <;> rfl

theorem parseTerm_printTerm (t : Term) (z : Bool) (d : List Byte) :
    parseTerm (printTerm t ++ (printZq z ++ printData d)) = some (t, printZq z ++ printData d) := by
  cases t with
  | short | length | drained => rfl
  | none =>
    cases z with
    | true => rfl
    | false => obtain h | ⟨ts, h⟩ := printData_cases d <;> rw [h] <;> rfl

theorem parseResponse_printResponse_ok {v : Nat} (hv : v ≤ maxLength) (d : List Byte) (t : Term) (z : Bool) :
    parseResponse (printResponse (.ok v d t z)) = some (.ok v d t z) := by
  have hprint : printResponse (.ok v d t z) =
      .arrow :: .word .ok :: .word .val :: .equals :: .num v :: (printTerm t ++ (printZq z ++ printData d)) := by
    rw [← List.append_assoc]
    rfl
  simp only [hprint, parseResponse, parseTerm_printTerm, parseZq_printZq, parseData_printData, if_pos hv]

end Sys2Proof.Text

namespace Sys2Proof.Proofs

open Sys2Proof.Text

/-- Settles O11: each optional part is told from what follows it by its keyword. -/
theorem textFormParsesBack : Obligations.TextFormParsesBack := by
  unfold Obligations.TextFormParsesBack
  exact ⟨fun i hi => parseCommand_printInstr hi, fun v d t z hv => parseResponse_printResponse_ok hv d t z, rfl, rfl⟩

end Sys2Proof.Proofs
end
